-- ==== Sys2Proof/Word.lean ====
section
/-! DEFINITION. The word types: bytes, the three register banks and their widths, register selectors
(00_scope.md R6 to R8; 30_encoding.md R66). -/

namespace Sys2Proof

/-- The smallest unit of both address spaces (20_memory.md R38). -/
abbrev Byte := BitVec 8

/-- The three register banks (00_scope.md R6 `BANKS`; 10_state.md R18). -/
inductive Bank where
  /-- Bank 0, 32-bit registers. -/
  | b32
  /-- Bank 1, 64-bit registers. -/
  | b64
  /-- Bank 2, 128-bit registers. -/
  | b128
deriving DecidableEq, Repr

/-- `W(b)`, the width of a bank's registers in bits (00_scope.md R6). -/
def Bank.width : Bank → Nat
  | .b32 => 32
  | .b64 => 64
  | .b128 => 128

/-- `B(b) = W(b)/8`, the width of a bank's registers in bytes (00_scope.md R6). -/
def Bank.bytes : Bank → Nat
  | .b32 => 4
  | .b64 => 8
  | .b128 => 16

/-- A register operand: a bank and an index within it (30_encoding.md R66). A selector byte whose bank
bits are 3 is no `Selector`: the decoder faults on it (R67). -/
structure Selector where
  bank : Bank
  index : Fin 64
deriving DecidableEq, Repr

end Sys2Proof
end

