-- ==== Sys2Proof/Config.lean ====
section
/-! DEFINITION. The parameters of the block that the spec lets a model take as arguments (00_scope.md R6): the
opcode map, the scratch-stack capacity, the call-depth limit and the longest segment. A machine state carries one
`Config`; no instruction writes it (assumption 1). -/

namespace Sys2Proof

/-- The 19 mnemonics, in the order of the opcode table (30_encoding.md R64). -/
inductive Mnemonic where
  | hlt | nop | lod | inc | add | sub | mul | div | mod | shr | shl | and | or | xor | not | cmp | cal | psh | pop
deriving DecidableEq, Repr

/-- `OPCODE_MAP`: the byte value of each opcode (30_encoding.md R64). -/
structure OpcodeMap where
  hlt : Byte
  nop : Byte
  lod : Byte
  inc : Byte
  add : Byte
  sub : Byte
  mul : Byte
  div : Byte
  mod : Byte
  shr : Byte
  shl : Byte
  and : Byte
  or : Byte
  xor : Byte
  not : Byte
  cmp : Byte
  cal : Byte
  psh : Byte
  pop : Byte
deriving DecidableEq, Repr

/-- The configuration of a block (00_scope.md R6). A limit `none` is "unbounded". -/
structure Config where
  /-- `OPCODE_MAP`. -/
  opcodeMap : OpcodeMap
  /-- `STACK_CAP`, the capacity of the scratch stack in bytes. -/
  stackCap : Option Nat
  /-- `MAX_CALL_DEPTH`, the number of frames the frame stack holds. -/
  maxCallDepth : Option Nat
  /-- `MAX_SEGMENT_LEN`, the longest segment the program counter can index. -/
  maxSegmentLen : Option Nat
deriving DecidableEq, Repr

end Sys2Proof
end

