-- ==== Sys2Proof/Syntax.lean ====
section
/-! DEFINITION. The instructions, one constructor for each row of the opcode table (30_encoding.md R59, R64). -/

namespace Sys2Proof

/-- The 19 instructions. `a` is the primary operand (30_encoding.md R68); `shamt` and `tgt` are the raw unsigned
bytes of R62 and R63. -/
inductive Instr where
  /-- HLT, format N (40_execution.md R80). -/
  | hlt
  /-- NOP, format N (40_execution.md R82). -/
  | nop
  /-- LOD, format RI (41_load.md R87). The immediate stands in the widest container; a well-formed one fits the
  width of `a`'s bank, so nothing is extended (30_encoding.md R61). -/
  | lod (a : Selector) (imm : BitVec 128)
  /-- INC, format R (42_arithmetic.md R91). -/
  | inc (a : Selector)
  /-- ADD, format RR (42_arithmetic.md R92). -/
  | add (a b : Selector)
  /-- SUB, format RR (42_arithmetic.md R93). -/
  | sub (a b : Selector)
  /-- MUL, format RR (42_arithmetic.md R94). -/
  | mul (a b : Selector)
  /-- DIV, format RR (42_arithmetic.md R95). -/
  | div (a b : Selector)
  /-- MOD, format RR (42_arithmetic.md R96). -/
  | mod (a b : Selector)
  /-- SHR, format RS (43_shift_logic.md R99). -/
  | shr (a : Selector) (shamt : Byte)
  /-- SHL, format RS (43_shift_logic.md R100). -/
  | shl (a : Selector) (shamt : Byte)
  /-- AND, format RR (43_shift_logic.md R101). -/
  | and (a b : Selector)
  /-- OR, format RR (43_shift_logic.md R102). -/
  | or (a b : Selector)
  /-- XOR, format RR (43_shift_logic.md R103). -/
  | xor (a b : Selector)
  /-- NOT, format R (43_shift_logic.md R104). -/
  | not (a : Selector)
  /-- CMP, format RR (44_compare.md R106). -/
  | cmp (a b : Selector)
  /-- CAL, format T (45_call.md R110). -/
  | cal (tgt : Byte)
  /-- PSH, format R (46_stack.md R115). -/
  | psh (a : Selector)
  /-- POP, format R (46_stack.md R116). -/
  | pop (a : Selector)
deriving DecidableEq, Repr

end Sys2Proof
end

