-- ==== Sys2Proof/WellFormed.lean ====
section
/-! DEFINITION. Which instructions the encoding can express. Banks, indices, shift amounts and call targets are in
range by their types; the one relation left is between a LOD's immediate and its destination's bank. -/

namespace Sys2Proof

/-- An instruction the encoding can express: a LOD's immediate has exactly the width of its destination's bank
(30_encoding.md R61); every other instruction is well-formed. -/
def Instr.wellFormed : Instr → Bool
  | .lod a imm => decide (imm.toNat < 2 ^ a.bank.width)
  | .hlt | .nop | .inc _ | .add _ _ | .sub _ _ | .mul _ _ | .div _ _ | .mod _ _ | .shr _ _ | .shl _ _
  | .and _ _ | .or _ _ | .xor _ _ | .not _ | .cmp _ _ | .cal _ | .psh _ | .pop _ => true

end Sys2Proof
end

