-- ==== Sys2Proof/Decode.lean ====
section
/-! DEFINITION. The decoder (30_encoding.md R57 to R73), total on any bytes and rejecting by name, and after it the
encoder, both over an arbitrary opcode map; the byte-order helpers they and the scratch stack use. -/

namespace Sys2Proof

/-! ## Byte order (00_scope.md R12) -/

/-- `LE(bytes)`: byte 0 least significant. -/
def leNat : List Byte → Nat
  | [] => 0
  | b :: bs => b.toNat + 256 * leNat bs

/-- `BE(bytes)`: byte 0 most significant. -/
def beNat (bs : List Byte) : Nat := leNat bs.reverse

/-- The `n` bytes of `x`, least significant first: `[x[7:0], x[15:8], …]` (46_stack.md R115). -/
def leBytes : Nat → Nat → List Byte
  | 0, _ => []
  | n + 1, x => BitVec.ofNat 8 x :: leBytes n (x / 256)

/-- The `n` bytes of `x`, most significant first (30_encoding.md R61). -/
def beBytes (n x : Nat) : List Byte := (leBytes n x).reverse

/-! ## Opcode map (30_encoding.md R64) -/

/-- The default map: the table of R64 (assumption 2). -/
def OpcodeMap.table : OpcodeMap where
  hlt := 0x00
  nop := 0x01
  lod := 0x02
  inc := 0x03
  add := 0x04
  sub := 0x05
  mul := 0x06
  div := 0x07
  mod := 0x08
  shr := 0x09
  shl := 0x0A
  and := 0x0B
  or := 0x0C
  xor := 0x0D
  not := 0x0E
  cmp := 0x0F
  cal := 0x10
  psh := 0x11
  pop := 0x12

/-- The byte value an opcode map gives a mnemonic. -/
def OpcodeMap.byteOf (om : OpcodeMap) : Mnemonic → Byte
  | .hlt => om.hlt
  | .nop => om.nop
  | .lod => om.lod
  | .inc => om.inc
  | .add => om.add
  | .sub => om.sub
  | .mul => om.mul
  | .div => om.div
  | .mod => om.mod
  | .shr => om.shr
  | .shl => om.shl
  | .and => om.and
  | .or => om.or
  | .xor => om.xor
  | .not => om.not
  | .cmp => om.cmp
  | .cal => om.cal
  | .psh => om.psh
  | .pop => om.pop

/-- The 19 mnemonics, in table order. -/
def Mnemonic.all : List Mnemonic :=
  [.hlt, .nop, .lod, .inc, .add, .sub, .mul, .div, .mod, .shr, .shl, .and, .or, .xor, .not, .cmp, .cal, .psh, .pop]

/-- "any injective map from the 19 mnemonics to byte values" (30_encoding.md R64). -/
abbrev OpcodeMap.Injective (om : OpcodeMap) : Prop := (Mnemonic.all.map om.byteOf).Nodup

/-- The mnemonic of an opcode byte, if it has one (30_encoding.md R71, R72). -/
def OpcodeMap.mnemonicOf (om : OpcodeMap) (op : Byte) : Option Mnemonic :=
  Mnemonic.all.find? fun m => om.byteOf m == op

/-! ## Register selectors (30_encoding.md R66, R67) -/

/-- The bank of the two high bits of a selector; 3 names none (R67). -/
def Bank.ofBits (bits : BitVec 2) : Option Bank :=
  match bits.toNat with
  | 0 => some .b32
  | 1 => some .b64
  | 2 => some .b128
  | _ => none

/-- The two bank bits of a bank (30_encoding.md R66). -/
def Bank.bits : Bank → BitVec 2
  | .b32 => 0
  | .b64 => 1
  | .b128 => 2

/-- `bank = sel[7:6]`, `index = sel[5:0]`; no selector when the bank bits are 3. -/
def Selector.ofByte (sel : Byte) : Option Selector :=
  match Bank.ofBits (sel.extractLsb' 6 2) with
  | some bank => some ⟨bank, Fin.ofNat 64 (sel.extractLsb' 0 6).toNat⟩
  | none => none

/-- The selector byte `sel[7:6] ++ sel[5:0]`. -/
def Selector.toByte (s : Selector) : Byte := s.bank.bits ++ BitVec.ofNat 6 s.index.val

/-! ## The decode procedure (30_encoding.md R71) -/

/-- Why the decode procedure raises a fault (30_encoding.md R57, R67, R72). -/
inductive DecodeError where
  /-- `StreamOverrun`: the segment ends before the instruction does. It carries the opcode byte, or none when the
  opcode fetch itself ran past the end (60_exceptions.md R124). -/
  | streamOverrun (opcode : Option Byte)
  /-- `UnknownOpcode`: the byte is outside `OPCODE_MAP`. -/
  | unknownOpcode (opcode : Byte)
  /-- `InvalidRegisterSelector`: the selector's bank bits are 3. -/
  | invalidSelector (opcode sel : Byte)
deriving DecidableEq, Repr

/-- What a part of the decoder answers: what it read and the bytes after it, or the fault it raises. -/
abbrev Decoded (α : Type) := Except DecodeError (α × List Byte)

/-- `Fetch(n)` on the bytes from the cursor on, for an operand of the instruction with opcode byte `op`: exactly `n`
bytes, or `StreamOverrun` when fewer are left (30_encoding.md R57). -/
def fetch (op : Byte) (n : Nat) (bs : List Byte) : Decoded (List Byte) :=
  if n ≤ bs.length then .ok (bs.take n, bs.drop n) else .error (.streamOverrun (some op))

/-- `Fetch(1)` for an operand byte: a shift amount or a call target (30_encoding.md R62, R63). -/
def fetchByte (op : Byte) : List Byte → Decoded Byte
  | [] => .error (.streamOverrun (some op))
  | b :: bs => .ok (b, bs)

/-- `fetchSel()`: one byte, checked as soon as it is fetched (30_encoding.md R67, R71). -/
def fetchSel (op : Byte) : List Byte → Decoded Selector
  | [] => .error (.streamOverrun (some op))
  | b :: bs =>
    match Selector.ofByte b with
    | some s => .ok (s, bs)
    | none => .error (.invalidSelector op b)

/-- Format R: `op sel` (30_encoding.md R59). -/
def decodeR (mk : Selector → Instr) (op : Byte) (bs : List Byte) : Decoded Instr :=
  match fetchSel op bs with
  | .ok (a, rest) => .ok (mk a, rest)
  | .error e => .error e

/-- Format RR: `op sel sel` (30_encoding.md R59). -/
def decodeRR (mk : Selector → Selector → Instr) (op : Byte) (bs : List Byte) : Decoded Instr :=
  match fetchSel op bs with
  | .ok (a, bs') => decodeR (mk a) op bs'
  | .error e => .error e

/-- Format RS: `op sel shamt` (30_encoding.md R59, R62). -/
def decodeRS (mk : Selector → Byte → Instr) (op : Byte) (bs : List Byte) : Decoded Instr :=
  match fetchSel op bs with
  | .ok (a, bs') =>
    match fetchByte op bs' with
    | .ok (shamt, rest) => .ok (mk a shamt, rest)
    | .error e => .error e
  | .error e => .error e

/-- Format RI: `op sel imm`, the immediate big-endian and as wide as the selector's bank
(30_encoding.md R59, R61, R70). -/
def decodeRI (mk : Selector → BitVec 128 → Instr) (op : Byte) (bs : List Byte) : Decoded Instr :=
  match fetchSel op bs with
  | .ok (a, bs') =>
    match fetch op a.bank.bytes bs' with
    | .ok (imm, rest) => .ok (mk a (BitVec.ofNat 128 (beNat imm)), rest)
    | .error e => .error e
  | .error e => .error e

/-- Format T: `op tgt` (30_encoding.md R59, R63). -/
def decodeT (mk : Byte → Instr) (op : Byte) (bs : List Byte) : Decoded Instr :=
  match fetchByte op bs with
  | .ok (tgt, rest) => .ok (mk tgt, rest)
  | .error e => .error e

/-- The operands of an instruction, by the format of its mnemonic (30_encoding.md R59, R71). -/
def decodeOperands (op : Byte) (m : Mnemonic) (bs : List Byte) : Decoded Instr :=
  match m with
  | .hlt => .ok (.hlt, bs)
  | .nop => .ok (.nop, bs)
  | .lod => decodeRI .lod op bs
  | .inc => decodeR .inc op bs
  | .add => decodeRR .add op bs
  | .sub => decodeRR .sub op bs
  | .mul => decodeRR .mul op bs
  | .div => decodeRR .div op bs
  | .mod => decodeRR .mod op bs
  | .shr => decodeRS .shr op bs
  | .shl => decodeRS .shl op bs
  | .and => decodeRR .and op bs
  | .or => decodeRR .or op bs
  | .xor => decodeRR .xor op bs
  | .not => decodeR .not op bs
  | .cmp => decodeRR .cmp op bs
  | .cal => decodeT .cal op bs
  | .psh => decodeR .psh op bs
  | .pop => decodeR .pop op bs

/-- One instruction from the bytes at the pc on, and the bytes after it, or the fault the decode procedure raises
(30_encoding.md R71). -/
def decode (om : OpcodeMap) : List Byte → Decoded Instr
  | [] => .error (.streamOverrun none)
  | op :: bs =>
    match om.mnemonicOf op with
    | some m => decodeOperands op m bs
    | none => .error (.unknownOpcode op)

/-! ## The encoder (30_encoding.md R59, R64) -/

/-- The mnemonic of an instruction. -/
def Instr.mnemonic : Instr → Mnemonic
  | .hlt => .hlt
  | .nop => .nop
  | .lod _ _ => .lod
  | .inc _ => .inc
  | .add _ _ => .add
  | .sub _ _ => .sub
  | .mul _ _ => .mul
  | .div _ _ => .div
  | .mod _ _ => .mod
  | .shr _ _ => .shr
  | .shl _ _ => .shl
  | .and _ _ => .and
  | .or _ _ => .or
  | .xor _ _ => .xor
  | .not _ => .not
  | .cmp _ _ => .cmp
  | .cal _ => .cal
  | .psh _ => .psh
  | .pop _ => .pop

/-- The operand bytes of an instruction, in stream order (30_encoding.md R59). -/
def Instr.operandBytes : Instr → List Byte
  | .hlt | .nop => []
  | .lod a imm => a.toByte :: beBytes a.bank.bytes imm.toNat
  | .inc a | .not a | .psh a | .pop a => [a.toByte]
  | .add a b | .sub a b | .mul a b | .div a b | .mod a b | .and a b | .or a b | .xor a b | .cmp a b =>
    [a.toByte, b.toByte]
  | .shr a shamt | .shl a shamt => [a.toByte, shamt]
  | .cal tgt => [tgt]

/-- The opcode byte of an instruction (30_encoding.md R64). -/
def Instr.opcode (om : OpcodeMap) (i : Instr) : Byte := om.byteOf i.mnemonic

/-- The bytes of an instruction, in stream order (30_encoding.md R58, R59). -/
def encode (om : OpcodeMap) (i : Instr) : List Byte := i.opcode om :: i.operandBytes

/-- The length of an instruction in bytes (30_encoding.md R65). -/
def Instr.length : Instr → Nat
  | .hlt | .nop => 1
  | .inc _ | .not _ | .psh _ | .pop _ | .cal _ => 2
  | .add _ _ | .sub _ _ | .mul _ _ | .div _ _ | .mod _ _ | .and _ _ | .or _ _ | .xor _ _ | .cmp _ _
  | .shr _ _ | .shl _ _ => 3
  | .lod a _ => 2 + a.bank.bytes

/-! ## Words as the opcode table numbers them -/

/-- The longest instruction, a LOD of bank 2 (30_encoding.md R65). -/
def longestInstr : Nat := 18

/-- The bytes of a table word: bit 0 is the least significant bit of the first byte; every bit above `nbits` is 0,
up to the longest instruction. -/
def tableWordBytes (nbits w : Nat) : List Byte := leBytes longestInstr (w % 2 ^ nbits)

/-- The instruction the decoder reads from a word numbered as the opcode table numbers it, under the default map. -/
def decodeTableWord (nbits w : Nat) : Option Instr :=
  match decode OpcodeMap.table (tableWordBytes nbits w) with
  | .ok (i, _) => some i
  | .error _ => none

end Sys2Proof
end

