-- ==== Sys2Proof/Machine/State.lean ====
section
/-! DEFINITION. The machine's state as plain data (10_state.md R17 to R37), the fault kinds and the fault record
(60_exceptions.md R120, R124), the outcomes other than a next state, and the state after reset
(70_reset_and_hazards.md R134). -/

namespace Sys2Proof.Machine

/-- The eight fault kinds (60_exceptions.md R120). -/
inductive FaultKind where
  | streamOverrun
  | invalidRegisterSelector
  | divideByZero
  | stackUnderflow
  | callTargetOutOfRange
  | unknownOpcode
  | callDepthExceeded
  | stackOverflow
deriving DecidableEq, Repr

/-- The fault record (60_exceptions.md R124); its `code` is `FaultKind.code kind`. -/
structure FaultRecord where
  kind : FaultKind
  seg : Nat
  pc : Nat
  opcode : Option Byte
  depth : Nat
  detail : Option Nat
deriving DecidableEq, Repr

/-- The run status (10_state.md R32). -/
inductive Status where
  | running
  | halted
  | faulted (r : FaultRecord)
deriving DecidableEq, Repr

/-- A context, the private state of one interpreter instance (10_state.md R17). -/
structure Context where
  /-- Index of the library segment this context executes (10_state.md R26). -/
  seg : Nat
  /-- Byte offset into that segment (10_state.md R24). -/
  pc : Nat
  /-- Bank 0 (10_state.md R18). -/
  x32 : Vector (BitVec 32) 64
  /-- Bank 1. -/
  x64 : Vector (BitVec 64) 64
  /-- Bank 2. -/
  x128 : Vector (BitVec 128) 64
  /-- The flag "equal" (10_state.md R23). -/
  eq : Bool
  /-- The flag "less-than". -/
  lt : Bool
  /-- The flag "greater-than". -/
  gt : Bool
  /-- The remainder register of bank 0 (10_state.md R22). -/
  rem32 : BitVec 32
  /-- The remainder register of bank 1. -/
  rem64 : BitVec 64
  /-- The remainder register of bank 2. -/
  rem128 : BitVec 128
deriving DecidableEq, Repr

/-- The content of the scratch stack: cells (offset, byte), offsets strictly rising (assumption 4). -/
abbrev Memory := List Host.Cell

/-- The whole state (10_state.md R33), with the configuration the model takes as an argument (assumption 1). -/
structure State where
  /-- The configuration; no instruction writes it. -/
  cfg : Config
  /-- The library, read-only (10_state.md R35). -/
  lib : List (List Byte)
  /-- The active (innermost) context. -/
  cur : Context
  /-- Saved callers, innermost first (10_state.md R30). -/
  frames : List Context
  /-- The scratch stack's content (10_state.md R28). -/
  mem : Memory
  /-- The stack pointer SP (10_state.md R29). -/
  sp : Nat
  /-- The run status (10_state.md R32). -/
  status : Status
deriving DecidableEq, Repr

/-- Why a step stops without a next state. The faults of 60_exceptions.md are NOT here: their entry is a next state
whose status is `faulted` (R123, assumption 6). -/
inductive Fault where
  /-- Raised by `step` on a run that has halted: "When `status` is `Halted` or `Faulted` the block has no step"
  (40_execution.md R77). Safe: the hardware does not go on either. -/
  | runHalted
  /-- Raised by `step` on a run that has faulted (40_execution.md R77, 60_exceptions.md R125). Safe, as above. -/
  | runFaulted (r : FaultRecord)
  /-- Raised by POP when an offset below SP holds no byte. No state the machine reaches has such an offset
  (20_memory.md R41: `length S = SP` at all times; assumption 5). Safe. -/
  | scratchHole
deriving DecidableEq, Repr

/-- Why a step or a launch has no meaning. -/
inductive Refusal where
  /-- Raised by `exec` for an instruction that has no meaning yet. Safe. -/
  | notModelled (mnemonic : String)
  /-- Raised by `step` when the current context names a segment the library does not have. No state the machine
  reaches does (10_state.md R37 (d); assumption 9). Safe. -/
  | absentSegment (seg : Nat)
  /-- Raised by `launch` for a library of zero segments (70_reset_and_hazards.md R135). Safe. -/
  | emptyLibrary
  /-- Raised by `launch` for a scratch stack that is not empty (70_reset_and_hazards.md R135). Safe. -/
  | stackNotEmpty
  /-- Raised by `launch` for a segment longer than `MAX_SEGMENT_LEN` (92_eei_decisions.md D22). Safe. -/
  | segmentTooLong
  /-- Raised by `launch` for an opcode map that is not injective (30_encoding.md R64). Safe. -/
  | opcodeMapNotInjective
deriving DecidableEq, Repr

/-- What `exec` and `step` answer. -/
abbrev Result := Host.Outcome State Fault Refusal

/-- A fresh context of segment `idx` (45_call.md R112; 10_state.md R20, R22, R23). -/
def Context.fresh (idx : Nat) : Context where
  seg := idx
  pc := 0
  x32 := Vector.replicate 64 0
  x64 := Vector.replicate 64 0
  x128 := Vector.replicate 64 0
  eq := false
  lt := false
  gt := false
  rem32 := 0
  rem64 := 0
  rem128 := 0

/-- The state right after a launch with library `lib` (70_reset_and_hazards.md R134). -/
def State.launched (cfg : Config) (lib : List (List Byte)) : State where
  cfg := cfg
  lib := lib
  cur := Context.fresh 0
  frames := []
  mem := []
  sp := 0
  status := .running

/-- The default configuration: the opcode table's map and no limits (00_scope.md R6; assumptions 2, 22, 23, 29). -/
def defaultConfig : Config where
  opcodeMap := OpcodeMap.table
  stackCap := none
  maxCallDepth := none
  maxSegmentLen := none

/-- The machine right after reset: a launch (70_reset_and_hazards.md R134) with the default configuration and the
least library the launch accepts, one empty segment (R135; assumption 10). -/
def State.reset : State := State.launched defaultConfig [[]]

end Sys2Proof.Machine
end

