-- ==== Sys2Proof/Machine/Ops.lean ====
section
/-! DEFINITION. The named operations of the machine: bytes of the scratch stack, the stack primitives
(20_memory.md R43 to R45), the instruction read port (10_state.md R15), registers (00_scope.md R8), advancing the pc,
taking a fault (60_exceptions.md R123, R124), call and return (45_call.md R110, R113), launch and observation. -/

namespace Sys2Proof.Machine

/-! ## Limits of the configuration -/

/-- `n` is within a limit; `none` is unbounded (00_scope.md R6). -/
def withinLimit (limit : Option Nat) (n : Nat) : Bool :=
  match limit with
  | none => true
  | some m => decide (n ≤ m)

/-! ## Bytes of the scratch stack -/

/-- What an offset that no cell lists reads as: no value (assumption 4). -/
def Memory.unlisted : Option Byte := none

/-- The canonical form: offsets strictly rising. As an unlisted offset reads as no value, no cell can equal it. -/
abbrev Memory.wf (m : Memory) : Prop := (m.map Prod.fst).Pairwise (· < ·)

/-- Read one byte. -/
def Memory.read (m : Memory) (a : Nat) : Option Byte :=
  match m with
  | [] => Memory.unlisted
  | (k, v) :: rest => if k = a then some v else Memory.read rest a

/-- Write one byte, keeping the offsets rising. -/
def Memory.write (m : Memory) (a : Nat) (v : Byte) : Memory :=
  match m with
  | [] => [(a, v)]
  | (k, w) :: rest =>
    if a < k then (a, v) :: (k, w) :: rest
    else if k = a then (a, v) :: rest
    else (k, w) :: Memory.write rest a v

/-- Forget every byte at offset `a` and above. -/
def Memory.truncate (m : Memory) (a : Nat) : Memory := m.filter fun c => decide (c.1 < a)

/-- Write bytes at rising offsets from `a` on. -/
def Memory.writeBytes (m : Memory) (a : Nat) : List Byte → Memory
  | [] => m
  | b :: bs => Memory.writeBytes (m.write a b) (a + 1) bs

/-- Read `n` bytes at rising offsets from `a` on, lowest offset first. -/
def Memory.readBytes (m : Memory) (a : Nat) : Nat → Option (List Byte)
  | 0 => some []
  | n + 1 =>
    match m.read a, m.readBytes (a + 1) n with
    | some b, some bs => some (b :: bs)
    | _, _ => none

/-! ## Stack primitives (00_scope.md R10) -/

/-- The byte at one offset of the scratch stack, if the offset is live. -/
def State.readByte (s : State) (a : Nat) : Option Byte := s.mem.read a

/-- `StackWrite(SP, n, bytes)` (20_memory.md R43): the bytes land at SP and above, and SP advances past them. -/
def State.stackWrite (s : State) (bytes : List Byte) : State :=
  { s with mem := s.mem.writeBytes s.sp bytes, sp := s.sp + bytes.length }

/-- `StackRead(SP - n, n)` (20_memory.md R44), for `n ≤ SP`. -/
def State.stackRead (s : State) (n : Nat) : Option (List Byte) := s.mem.readBytes (s.sp - n) n

/-- `StackDrop(n)` (20_memory.md R45), for `n ≤ SP`: the top `n` bytes are no longer part of the stack. -/
def State.stackDrop (s : State) (n : Nat) : State :=
  { s with mem := s.mem.truncate (s.sp - n), sp := s.sp - n }

/-- A push of `n` bytes stays within `STACK_CAP` (20_memory.md R42). -/
def State.pushFits (s : State) (n : Nat) : Bool := withinLimit s.cfg.stackCap (s.sp + n)

/-! ## The instruction read port (10_state.md R15 (a)) -/

/-- The bytes of segment `seg`; a segment the library does not have is empty. -/
def State.segment (s : State) (seg : Nat) : List Byte := s.lib.getD seg []

/-- `seglen(seg)`. -/
def State.seglen (s : State) (seg : Nat) : Nat := (s.segment seg).length

/-- `ifetch(seg, a)`, for `a < seglen(seg)`. -/
def State.ifetch (s : State) (seg a : Nat) : Option Byte := (s.segment seg)[a]?

/-- The bytes of the current segment from the pc on: what the decoder's cursor has before it
(00_scope.md R9; 30_encoding.md R58). -/
def State.stream (s : State) : List Byte := (s.segment s.cur.seg).drop s.cur.pc

/-! ## Registers (00_scope.md R8) -/

/-- `x[b, i]`. -/
def Context.reg (c : Context) (b : Bank) (i : Fin 64) : BitVec b.width :=
  match b with
  | .b32 => c.x32.get i
  | .b64 => c.x64.get i
  | .b128 => c.x128.get i

/-- `x[b, i] <- v`. No register is hardwired (10_state.md R19) and no two alias (R18). -/
def Context.setReg (c : Context) (b : Bank) (i : Fin 64) (v : BitVec b.width) : Context :=
  match b with
  | .b32 => { c with x32 := c.x32.set i.val v i.isLt }
  | .b64 => { c with x64 := c.x64.set i.val v i.isLt }
  | .b128 => { c with x128 := c.x128.set i.val v i.isLt }

/-- `rem[b]`. -/
def Context.rem (c : Context) (b : Bank) : BitVec b.width :=
  match b with
  | .b32 => c.rem32
  | .b64 => c.rem64
  | .b128 => c.rem128

/-- `rem[b] <- v` (10_state.md R22). -/
def Context.setRem (c : Context) (b : Bank) (v : BitVec b.width) : Context :=
  match b with
  | .b32 => { c with rem32 := v }
  | .b64 => { c with rem64 := v }
  | .b128 => { c with rem128 := v }

/-- Write the pc of a context. -/
def Context.setPc (c : Context) (pc : Nat) : Context := { c with pc := pc }

/-- Write the three flags of a context (10_state.md R23). -/
def Context.setFlags (c : Context) (eq lt gt : Bool) : Context := { c with eq := eq, lt := lt, gt := gt }

/-! ## Completing an instruction (40_execution.md R78, R79 (a)) -/

/-- `cur.pc <- next_pc`: the pc moves past the instruction. -/
def State.advance (s : State) (i : Instr) : State :=
  { s with cur := s.cur.setPc (s.cur.pc + i.length) }

/-! ## Taking a fault (60_exceptions.md R123, R124) -/

/-- The code of a fault kind (60_exceptions.md R120). -/
def FaultKind.code : FaultKind → Nat
  | .streamOverrun => 1
  | .invalidRegisterSelector => 2
  | .divideByZero => 3
  | .stackUnderflow => 4
  | .callTargetOutOfRange => 5
  | .unknownOpcode => 6
  | .callDepthExceeded => 7
  | .stackOverflow => 8

/-- `raise K` (00_scope.md R11; 60_exceptions.md R123): the status becomes `Faulted` with the record of R124 and
nothing else changes. There is no handler and no return from a fault (R125). -/
def State.takeFault (s : State) (kind : FaultKind) (opcode : Option Byte) (detail : Option Nat) : State :=
  { s with
    status := .faulted
      { kind := kind, seg := s.cur.seg, pc := s.cur.pc, opcode := opcode, depth := s.frames.length, detail := detail } }

/-- A fault raised by the execution check of instruction `i` (60_exceptions.md R122 (4)). -/
def State.raise (s : State) (i : Instr) (kind : FaultKind) (detail : Option Nat) : Result :=
  .next (s.takeFault kind (some (i.opcode s.cfg.opcodeMap)) detail)

/-- A fault raised by the decode procedure (30_encoding.md R71; the details are those of 60_exceptions.md R124). -/
def State.raiseDecode (s : State) (e : DecodeError) : Result :=
  match e with
  | .streamOverrun opcode => .next (s.takeFault .streamOverrun opcode none)
  | .unknownOpcode op => .next (s.takeFault .unknownOpcode (some op) (some op.toNat))
  | .invalidSelector op sel => .next (s.takeFault .invalidRegisterSelector (some op) (some sel.toNat))

/-! ## Call and return -/

/-- The segment a call operand resolves to: `s + 1 + t`, without wrap-around (45_call.md R109). -/
def State.callTarget (s : State) (tgt : Byte) : Nat := s.cur.seg + 1 + tgt.toNat

/-- Another frame fits (45_call.md R111). -/
def State.callFits (s : State) : Bool := withinLimit s.cfg.maxCallDepth (s.frames.length + 1)

/-- The current context becomes the innermost frame and a fresh context of segment `idx` becomes current
(45_call.md R110, R112). -/
def State.enterCall (s : State) (idx : Nat) : State :=
  { s with cur := Context.fresh idx, frames := s.cur :: s.frames }

/-- The end of a context by HLT: the innermost caller resumes (45_call.md R113), or, when there is none, the run
halts (40_execution.md R80, R81). -/
def State.leaveContext (s : State) : State :=
  match s.frames with
  | [] => { s.advance .hlt with status := .halted }
  | caller :: rest => { s with cur := caller, frames := rest }

/-! ## Launch and observation (10_state.md R15) -/

/-- Launch of a top-level run (70_reset_and_hazards.md R134): refused where the host breaks its duties
(R135; assumption 11). -/
def launch (cfg : Config) (lib : List (List Byte)) (stack : List Byte) : Result :=
  if lib = [] then .refused .emptyLibrary
  else if stack ≠ [] then .refused .stackNotEmpty
  else if !decide cfg.opcodeMap.Injective then .refused .opcodeMapNotInjective
  else if !lib.all (fun seg => withinLimit cfg.maxSegmentLen seg.length) then .refused .segmentTooLong
  else .next (State.launched cfg lib)

/-- What the host reads after a run has ended (10_state.md R15 (d), (e); 40_execution.md R84). -/
structure Observation where
  status : Status
  top : Context
  mem : Memory
  sp : Nat
deriving DecidableEq, Repr

/-- The top-level context: the outermost of the call chain (10_state.md R17, R30). -/
def State.topContext (s : State) : Context := s.frames.getLastD s.cur

/-- The observation port: nothing while the run goes on (10_state.md R15 (e); assumption 30). -/
def State.observe (s : State) : Option Observation :=
  match s.status with
  | .running => none
  | .halted | .faulted _ => some { status := s.status, top := s.topContext, mem := s.mem, sp := s.sp }

end Sys2Proof.Machine
end

