-- ==== Sys2Proof/Machine/Operands.lean ====
section
/-! DEFINITION. The operand forms: which register an operand names, and the values an instruction computes
(30_encoding.md R61, R62, R68, R69; 42_arithmetic.md; 43_shift_logic.md). -/

namespace Sys2Proof.Machine

/-! ## Register operands -/

/-- `A = x[ba, index_of(a)]`, the primary operand (30_encoding.md R68, R69). -/
def State.operandA (s : State) (a : Selector) : BitVec a.bank.width := s.cur.reg a.bank a.index

/-- `Bv = x[ba, index_of(b)]`: b's index in a's bank (30_encoding.md R68). -/
def State.operandB (s : State) (a b : Selector) : BitVec a.bank.width := s.cur.reg a.bank b.index

/-- `x[ba, index_of(a)] <- v`. -/
def State.writeA (s : State) (a : Selector) (v : BitVec a.bank.width) : State :=
  { s with cur := s.cur.setReg a.bank a.index v }

/-- `rem[ba] <- v` (42_arithmetic.md R95). -/
def State.writeRem (s : State) (b : Bank) (v : BitVec b.width) : State :=
  { s with cur := s.cur.setRem b v }

/-- The immediate of a LOD at the width of its destination's bank (30_encoding.md R61). -/
def immOperand (b : Bank) (imm : BitVec 128) : BitVec b.width := BitVec.ofNat b.width imm.toNat

/-- The effective shift amount `k = shamt mod W` (43_shift_logic.md R98). -/
def shiftAmount (w : Nat) (shamt : Byte) : Nat := shamt.toNat % w

/-! ## Integer arithmetic: exact on the signed readings, then reduced modulo 2^W (42_arithmetic.md R89) -/

/-- The remainder of truncating division: `a - b * tdiv(a, b)` (00_scope.md R12). -/
def trem (a b : Int) : Int := a - b * a.tdiv b

/-- INC (42_arithmetic.md R91). -/
def aluInc {w : Nat} (x : BitVec w) : BitVec w := BitVec.ofInt w (x.toInt + 1)

/-- ADD (42_arithmetic.md R92). -/
def aluAdd {w : Nat} (x y : BitVec w) : BitVec w := BitVec.ofInt w (x.toInt + y.toInt)

/-- SUB (42_arithmetic.md R93). -/
def aluSub {w : Nat} (x y : BitVec w) : BitVec w := BitVec.ofInt w (x.toInt - y.toInt)

/-- MUL (42_arithmetic.md R94). -/
def aluMul {w : Nat} (x y : BitVec w) : BitVec w := BitVec.ofInt w (x.toInt * y.toInt)

/-- The quotient of DIV, rounded toward zero (42_arithmetic.md R95). -/
def aluQuot {w : Nat} (x y : BitVec w) : BitVec w := BitVec.ofInt w (x.toInt.tdiv y.toInt)

/-- The remainder of DIV and MOD, with the sign of the dividend (42_arithmetic.md R95, R96). -/
def aluRem {w : Nat} (x y : BitVec w) : BitVec w := BitVec.ofInt w (trem x.toInt y.toInt)

/-! ## Shifts and bitwise logic (43_shift_logic.md) -/

/-- SHR by `k`: `bv_W(floor(toInt_W(A) / 2^k))` (43_shift_logic.md R99). -/
def aluShr {w : Nat} (x : BitVec w) (k : Nat) : BitVec w := BitVec.ofInt w (x.toInt.fdiv (2 ^ k))

/-- SHL by `k`: `bv_W(toNat(A) * 2^k)` (43_shift_logic.md R100). -/
def aluShl {w : Nat} (x : BitVec w) (k : Nat) : BitVec w := BitVec.ofNat w (x.toNat * 2 ^ k)

/-! ## Values on the scratch stack -/

/-- The bytes PSH writes: least significant first (46_stack.md R115; 20_memory.md R49). -/
def pushBytes (b : Bank) (v : BitVec b.width) : List Byte := leBytes b.bytes v.toNat

/-- The value POP reads: `toNat = LE(m)` (46_stack.md R116). -/
def popValue (b : Bank) (m : List Byte) : BitVec b.width := BitVec.ofNat b.width (leNat m)

/-! ## The shapes several instructions share -/

/-- A completed instruction whose one effect is `x[ba, ia] <- v`. -/
def State.completeA (s : State) (i : Instr) (a : Selector) (v : BitVec a.bank.width) : Result :=
  .next ((s.writeA a v).advance i)

end Sys2Proof.Machine
end

