-- ==== Sys2Proof/Machine/Flags.lean ====
section
/-! DEFINITION. The comparison flags (10_state.md R23; 44_compare.md R105, R106): the only flags of the machine,
written by CMP alone. -/

namespace Sys2Proof.Machine

/-- `eq`: the operands are equal as signed integers (44_compare.md R106). -/
def flagEq {w : Nat} (x y : BitVec w) : Bool := decide (x.toInt = y.toInt)

/-- `lt`: the first is less, as signed integers (44_compare.md R105, R106). -/
def flagLt {w : Nat} (x y : BitVec w) : Bool := decide (x.toInt < y.toInt)

/-- `gt`: the first is greater, as signed integers (44_compare.md R105, R106). -/
def flagGt {w : Nat} (x y : BitVec w) : Bool := decide (x.toInt > y.toInt)

/-- All three flags of the current context, written together (44_compare.md R106). -/
def State.writeFlags (s : State) (eq lt gt : Bool) : State :=
  { s with cur := s.cur.setFlags eq lt gt }

/-- At most one flag is set (10_state.md R37 (b)). -/
def Context.flagsExclusive (c : Context) : Bool :=
  !(c.eq && c.lt) && !(c.eq && c.gt) && !(c.lt && c.gt)

end Sys2Proof.Machine
end

