-- ==== Sys2Proof/Machine/Arithmetic.lean ====
section
/-! DEFINITION. INC, ADD, SUB, MUL, DIV, MOD (42_arithmetic.md R91 to R96). -/

namespace Sys2Proof.Machine

/-- INC (42_arithmetic.md R91). -/
def execInc (a : Selector) (s : State) : Result :=
  s.completeA (.inc a) a (aluInc (s.operandA a))

/-- ADD (42_arithmetic.md R92). -/
def execAdd (a b : Selector) (s : State) : Result :=
  s.completeA (.add a b) a (aluAdd (s.operandA a) (s.operandB a b))

/-- SUB (42_arithmetic.md R93). -/
def execSub (a b : Selector) (s : State) : Result :=
  s.completeA (.sub a b) a (aluSub (s.operandA a) (s.operandB a b))

/-- MUL (42_arithmetic.md R94). -/
def execMul (a b : Selector) (s : State) : Result :=
  s.completeA (.mul a b) a (aluMul (s.operandA a) (s.operandB a b))

/-- DIV (42_arithmetic.md R95): quotient and remainder both from the values held before the instruction. -/
def execDiv (a b : Selector) (s : State) : Result :=
  if (s.operandB a b).toInt = 0 then s.raise (.div a b) .divideByZero none
  else
    (s.writeRem a.bank (aluRem (s.operandA a) (s.operandB a b))).completeA (.div a b) a
      (aluQuot (s.operandA a) (s.operandB a b))

/-- MOD (42_arithmetic.md R96): no remainder register is written. -/
def execMod (a b : Selector) (s : State) : Result :=
  if (s.operandB a b).toInt = 0 then s.raise (.mod a b) .divideByZero none
  else s.completeA (.mod a b) a (aluRem (s.operandA a) (s.operandB a b))

end Sys2Proof.Machine
end

