-- ==== Sys2Proof/Machine/Call.lean ====
section
/-! DEFINITION. CAL (45_call.md R109 to R112). The return from a call is HLT's (`execHlt`). -/

namespace Sys2Proof.Machine

/-- CAL (45_call.md R110): the target is checked before the depth; the frame keeps the caller with the pc after the
operand. -/
def execCal (tgt : Byte) (s : State) : Result :=
  if s.lib.length ≤ s.callTarget tgt then s.raise (.cal tgt) .callTargetOutOfRange (some (s.callTarget tgt))
  else if s.callFits then .next ((s.advance (.cal tgt)).enterCall (s.callTarget tgt))
  else s.raise (.cal tgt) .callDepthExceeded none

end Sys2Proof.Machine
end

