-- ==== Sys2Proof/Machine/Compare.lean ====
section
/-! DEFINITION. CMP (44_compare.md R106). -/

namespace Sys2Proof.Machine

/-- CMP (44_compare.md R106). -/
def execCmp (a b : Selector) (s : State) : Result :=
  .next
    ((s.writeFlags (flagEq (s.operandA a) (s.operandB a b)) (flagLt (s.operandA a) (s.operandB a b))
      (flagGt (s.operandA a) (s.operandB a b))).advance (.cmp a b))

end Sys2Proof.Machine
end

