-- ==== Sys2Proof/Machine/Control.lean ====
section
/-! DEFINITION. HLT and NOP (40_execution.md R80 to R82). -/

namespace Sys2Proof.Machine

/-- HLT (40_execution.md R80, R81; the return is 45_call.md R113). -/
def execHlt (s : State) : Result := .next s.leaveContext

/-- NOP (40_execution.md R82). -/
def execNop (s : State) : Result := .next (s.advance .nop)

end Sys2Proof.Machine
end

