-- ==== Sys2Proof/Machine/Load.lean ====
section
/-! DEFINITION. LOD (41_load.md R87). -/

namespace Sys2Proof.Machine

/-- LOD (41_load.md R87). -/
def execLod (a : Selector) (imm : BitVec 128) (s : State) : Result :=
  s.completeA (.lod a imm) a (immOperand a.bank imm)

end Sys2Proof.Machine
end

