-- ==== Sys2Proof/Machine/ShiftLogic.lean ====
section
/-! DEFINITION. SHR, SHL, AND, OR, XOR, NOT (43_shift_logic.md R99 to R104). -/

namespace Sys2Proof.Machine

/-- SHR (43_shift_logic.md R99). -/
def execShr (a : Selector) (shamt : Byte) (s : State) : Result :=
  s.completeA (.shr a shamt) a (aluShr (s.operandA a) (shiftAmount a.bank.width shamt))

/-- SHL (43_shift_logic.md R100). -/
def execShl (a : Selector) (shamt : Byte) (s : State) : Result :=
  s.completeA (.shl a shamt) a (aluShl (s.operandA a) (shiftAmount a.bank.width shamt))

/-- AND (43_shift_logic.md R101). -/
def execAnd (a b : Selector) (s : State) : Result :=
  s.completeA (.and a b) a (s.operandA a &&& s.operandB a b)

/-- OR (43_shift_logic.md R102). -/
def execOr (a b : Selector) (s : State) : Result :=
  s.completeA (.or a b) a (s.operandA a ||| s.operandB a b)

/-- XOR (43_shift_logic.md R103). -/
def execXor (a b : Selector) (s : State) : Result :=
  s.completeA (.xor a b) a (s.operandA a ^^^ s.operandB a b)

/-- NOT (43_shift_logic.md R104). -/
def execNot (a : Selector) (s : State) : Result :=
  s.completeA (.not a) a (~~~(s.operandA a))

end Sys2Proof.Machine
end

