-- ==== Sys2Proof/Machine/Stack.lean ====
section
/-! DEFINITION. PSH and POP (46_stack.md R115, R116). -/

namespace Sys2Proof.Machine

/-- PSH (46_stack.md R115). -/
def execPsh (a : Selector) (s : State) : Result :=
  if s.pushFits a.bank.bytes then .next ((s.stackWrite (pushBytes a.bank (s.operandA a))).advance (.psh a))
  else s.raise (.psh a) .stackOverflow none

/-- POP (46_stack.md R116): the register is replaced. -/
def execPop (a : Selector) (s : State) : Result :=
  if s.sp < a.bank.bytes then s.raise (.pop a) .stackUnderflow none
  else
    match s.stackRead a.bank.bytes with
    | some m => (s.stackDrop a.bank.bytes).completeA (.pop a) a (popValue a.bank m)
    | none => .fault .scratchHole

end Sys2Proof.Machine
end

