-- ==== Sys2Proof/Machine/Fetch.lean ====
section
/-! DEFINITION. Decoding at the current context's pc (40_execution.md R77 (1)), and placing bytes there. -/

namespace Sys2Proof.Machine

/-- The decode procedure of 30_encoding.md R71 at `(cur.seg, cur.pc)`, under the configuration's opcode map. -/
def State.decodeHere (s : State) : Decoded Instr := decode s.cfg.opcodeMap s.stream

/-- `seg` with `bytes` at offset `at_`; offsets below it that the segment does not have become 0. -/
def placeBytes (seg : List Byte) (at_ : Nat) (bytes : List Byte) : List Byte :=
  seg.take at_ ++ List.replicate (at_ - seg.length) 0 ++ bytes ++ seg.drop (at_ + bytes.length)

/-- The library with `bytes` at offset `at_` of segment `seg`; segments it lacks up to that one become empty. -/
def placeInLibrary (lib : List (List Byte)) (seg at_ : Nat) (bytes : List Byte) : List (List Byte) :=
  let padded := lib ++ List.replicate (seg + 1 - lib.length) []
  padded.set seg (placeBytes (padded.getD seg []) at_ bytes)

end Sys2Proof.Machine
end

