-- ==== Sys2Proof/Machine/Step.lean ====
section
/-! DEFINITION. One step of the block (40_execution.md R77). -/

namespace Sys2Proof.Machine

/-- One step: decode at the pc, then the instruction's rule, or the fault the decode procedure raises. A run that has
ended has no step (40_execution.md R77; assumption 7). -/
def step (s : State) : Host.Outcome State Fault Refusal :=
  match s.status with
  | .halted => .fault .runHalted
  | .faulted r => .fault (.runFaulted r)
  | .running =>
    if s.cur.seg < s.lib.length then
      match s.decodeHere with
      | .ok (i, _) => exec i s
      | .error e => s.raiseDecode e
    else .refused (.absentSegment s.cur.seg)

/-- `s` with a word, numbered as the opcode table numbers it, stored where `step` fetches next, and running: the load
of a program from outside the machine (assumptions 10, 12). -/
def State.withFetchWord (s : State) (nbits w : Nat) : State :=
  { s with lib := placeInLibrary s.lib s.cur.seg s.cur.pc (tableWordBytes nbits w), status := .running }

end Sys2Proof.Machine
end

