-- ==== Sys2Proof/Safety.lean ====
section
/-! DEFINITION. What counts as a well-formed state and a finished run: the invariants of 10_state.md R37, and the end
of a run (40_execution.md R84). -/

namespace Sys2Proof.Machine

/-- Every context of the run: the active one, then the saved callers, innermost first (10_state.md R30). -/
def State.contexts (s : State) : List Context := s.cur :: s.frames

/-- The invariants of 10_state.md R37, with what they rest on. -/
structure State.Inv (s : State) : Prop where
  /-- R37 (a): the bytes of the scratch stack are exactly those at offsets 0 .. SP-1 (20_memory.md R41). -/
  stackExact : s.mem.map Prod.fst = List.range s.sp
  /-- 20_memory.md R42: SP never exceeds `STACK_CAP`. -/
  stackWithinCap : withinLimit s.cfg.stackCap s.sp = true
  /-- R37 (b): at most one flag is set, in every context. -/
  flagsExclusive : ∀ c ∈ s.contexts, c.flagsExclusive = true
  /-- R37 (c), for every context: a saved caller resumes at its pc. -/
  pcInSegment : ∀ c ∈ s.contexts, c.pc ≤ s.seglen c.seg
  /-- R37 (d). -/
  segInLibrary : ∀ c ∈ s.contexts, c.seg < s.lib.length
  /-- R37 (e). -/
  depthWithinLimit : withinLimit s.cfg.maxCallDepth s.frames.length = true
  /-- R37 (f): the segments of the call chain strictly decrease outwards. -/
  segsDecrease : (s.contexts.map Context.seg).Pairwise (· > ·)
  /-- R37 (f): the outermost context executes segment 0. -/
  topIsEntry : s.topContext.seg = 0

/-- A run has ended exactly when its status is `Halted` or `Faulted` (40_execution.md R84). -/
def State.ended (s : State) : Prop := s.status ≠ .running

/-! ## What an instruction leaves unchanged -/

/-- Every register of the current context but register `i` of bank `b` is unchanged. -/
def State.SameRegistersExcept (s t : State) (b : Bank) (i : Fin 64) : Prop :=
  ∀ b' j, b' ≠ b ∨ j ≠ i → t.cur.reg b' j = s.cur.reg b' j

/-- Every register of the current context is unchanged. -/
def State.SameRegisters (s t : State) : Prop := ∀ b i, t.cur.reg b i = s.cur.reg b i

/-- The three flags of the current context are unchanged. -/
def State.SameFlags (s t : State) : Prop := t.cur.eq = s.cur.eq ∧ t.cur.lt = s.cur.lt ∧ t.cur.gt = s.cur.gt

/-- The three remainder registers of the current context are unchanged. -/
def State.SameRemainders (s t : State) : Prop := ∀ b, t.cur.rem b = s.cur.rem b

/-- The stack pointer and every byte of the scratch stack are unchanged. -/
def State.SameScratch (s t : State) : Prop := t.sp = s.sp ∧ ∀ a, t.readByte a = s.readByte a

/-- The configuration, the library, the current segment, every saved caller and the run status are unchanged. -/
def State.SameRun (s t : State) : Prop :=
  t.cfg = s.cfg ∧ t.lib = s.lib ∧ t.cur.seg = s.cur.seg ∧ t.frames = s.frames ∧ t.status = s.status

end Sys2Proof.Machine
end

