-- ==== Sys2Proof/Certificates/Slice0/Obligations.lean ====
section
/-! DEFINITION. The statements for the provers. Rules are of spec/; "D<n>" is a decision of 92_eei_decisions.md, and
"log <n>" an entry of notes/assumptions. -/

open Sys2Proof Sys2Proof.Machine

namespace Sys2Proof.Machine

/-! ## Words the statements share

In the formats below the default byte values are the spec's decision D2 (log 2), the order of the checks its decisions
D5 and D6 (log 15), and the opcode byte and selector an error carries its decision D9 (log 14). -/

/-- `s` with its status alone changed, to a fault whose record names the current segment and pc and the call depth
(60_exceptions.md R123, R124). -/
def faultedAt (s : State) (k : FaultKind) (opcode : Option Byte) (detail : Option Nat) : State where
  cfg := s.cfg
  lib := s.lib
  cur := s.cur
  frames := s.frames
  mem := s.mem
  sp := s.sp
  status := .faulted ⟨k, s.cur.seg, s.cur.pc, opcode, s.frames.length, detail⟩

/-- The instruction raises fault `k` (00_scope.md R11): the status alone changes, and the record holds the
instruction's opcode byte. -/
def Raises (i : Instr) (s : State) (k : FaultKind) (detail : Option Nat) : Prop :=
  exec i s = .next (faultedAt s k (some (s.cfg.opcodeMap.byteOf i.mnemonic)) detail)

/-- The instruction completes with a write of register `a` alone: the register then holds `v`, the pc stands `n`
bytes on, and everything else is unchanged. -/
def WritesOnly (i : Instr) (s : State) (a : Selector) (v : BitVec a.bank.width) (n : Nat) : Prop :=
  ∃ t, exec i s = .next t ∧ t.cur.reg a.bank a.index = v ∧ s.SameRegistersExcept t a.bank a.index ∧
    s.SameFlags t ∧ s.SameRemainders t ∧ s.SameScratch t ∧ s.SameRun t ∧ t.cur.pc = s.cur.pc + n

/-- Format N (30_encoding.md R59): one opcode byte, default value `byte`; it overruns only on no byte at all. -/
def FormN (i : Instr) (m : Mnemonic) (byte : Byte) : Prop :=
  OpcodeMap.table.byteOf m = byte ∧ i.length = 1 ∧
  ∀ om : OpcodeMap, om.Injective →
    encode om i = [om.byteOf m] ∧
    decode om [] = .error (.streamOverrun none) ∧
    ∀ rest, decode om (om.byteOf m :: rest) = .ok (i, rest)

/-- Format R (30_encoding.md R59): opcode, selector; the faults of a missing or invalid selector. -/
def FormR (mk : Selector → Instr) (m : Mnemonic) (byte : Byte) : Prop :=
  OpcodeMap.table.byteOf m = byte ∧ (∀ a, (mk a).length = 2) ∧
  ∀ om : OpcodeMap, om.Injective →
    (∀ a, encode om (mk a) = [om.byteOf m, a.toByte]) ∧
    decode om [] = .error (.streamOverrun none) ∧
    decode om [om.byteOf m] = .error (.streamOverrun (some (om.byteOf m))) ∧
    (∀ x rest, 0xC0 ≤ x.toNat → decode om (om.byteOf m :: x :: rest) = .error (.invalidSelector (om.byteOf m) x)) ∧
    ∀ a rest, decode om (om.byteOf m :: a.toByte :: rest) = .ok (mk a, rest)

/-- Format RR (30_encoding.md R59): opcode, two selectors; a is fetched and checked before b is fetched. -/
def FormRR (mk : Selector → Selector → Instr) (m : Mnemonic) (byte : Byte) : Prop :=
  OpcodeMap.table.byteOf m = byte ∧ (∀ a b, (mk a b).length = 3) ∧
  ∀ om : OpcodeMap, om.Injective →
    (∀ a b, encode om (mk a b) = [om.byteOf m, a.toByte, b.toByte]) ∧
    decode om [] = .error (.streamOverrun none) ∧
    decode om [om.byteOf m] = .error (.streamOverrun (some (om.byteOf m))) ∧
    (∀ x rest, 0xC0 ≤ x.toNat → decode om (om.byteOf m :: x :: rest) = .error (.invalidSelector (om.byteOf m) x)) ∧
    (∀ a : Selector, decode om [om.byteOf m, a.toByte] = .error (.streamOverrun (some (om.byteOf m)))) ∧
    (∀ (a : Selector) x rest, 0xC0 ≤ x.toNat →
      decode om (om.byteOf m :: a.toByte :: x :: rest) = .error (.invalidSelector (om.byteOf m) x)) ∧
    ∀ a b rest, decode om (om.byteOf m :: a.toByte :: b.toByte :: rest) = .ok (mk a b, rest)

/-- Format RS (30_encoding.md R59, R62): opcode, selector, any shift-amount byte. -/
def FormRS (mk : Selector → Byte → Instr) (m : Mnemonic) (byte : Byte) : Prop :=
  OpcodeMap.table.byteOf m = byte ∧ (∀ a k, (mk a k).length = 3) ∧
  ∀ om : OpcodeMap, om.Injective →
    (∀ a k, encode om (mk a k) = [om.byteOf m, a.toByte, k]) ∧
    decode om [] = .error (.streamOverrun none) ∧
    decode om [om.byteOf m] = .error (.streamOverrun (some (om.byteOf m))) ∧
    (∀ x rest, 0xC0 ≤ x.toNat → decode om (om.byteOf m :: x :: rest) = .error (.invalidSelector (om.byteOf m) x)) ∧
    (∀ a : Selector, decode om [om.byteOf m, a.toByte] = .error (.streamOverrun (some (om.byteOf m)))) ∧
    ∀ a k rest, decode om (om.byteOf m :: a.toByte :: k :: rest) = .ok (mk a k, rest)

/-- Format T (30_encoding.md R59, R63): opcode, any call-target byte. -/
def FormT (mk : Byte → Instr) (m : Mnemonic) (byte : Byte) : Prop :=
  OpcodeMap.table.byteOf m = byte ∧ (∀ k, (mk k).length = 2) ∧
  ∀ om : OpcodeMap, om.Injective →
    (∀ k, encode om (mk k) = [om.byteOf m, k]) ∧
    decode om [] = .error (.streamOverrun none) ∧
    decode om [om.byteOf m] = .error (.streamOverrun (some (om.byteOf m))) ∧
    ∀ k rest, decode om (om.byteOf m :: k :: rest) = .ok (mk k, rest)

/-- Instructions run one after the other, as long as each answers a next state. -/
def execAll : List Instr → State → Result
  | [], s => .next s
  | i :: is, s =>
    match exec i s with
    | .next t => execAll is t
    | .fault r => .fault r
    | .refused r => .refused r

end Sys2Proof.Machine

/-! ## Encoding -/

/-- 30_encoding.md R59, R64, R66, R71: under every injective opcode map, decoding the encoding of any well-formed
instruction, whatever bytes follow, gives the instruction back and exactly the bytes that follow. -/
def Obligations.EncodedInstructionDecodesBack : Prop :=
  ∀ (om : OpcodeMap) (i : Instr) (rest : List Byte), om.Injective → i.wellFormed = true →
    decode om (encode om i ++ rest) = .ok (i, rest)

/-- 30_encoding.md R71, R73; 40_execution.md R86: what the decoder accepts is a well-formed instruction whose encoding
is exactly the bytes it took, so no bit of them is dropped and none after them is read. -/
def Obligations.DecodedBytesAreTheEncoding : Prop :=
  ∀ (om : OpcodeMap) (bs : List Byte) (i : Instr) (rest : List Byte), decode om bs = .ok (i, rest) →
    i.wellFormed = true ∧ bs = encode om i ++ rest ∧ (encode om i).length = i.length

/-- 30_encoding.md R57: a segment that ends inside an instruction overruns, at every one of its bytes; the record's
opcode byte is none exactly when the opcode fetch itself ran past the end (60_exceptions.md R124). -/
def Obligations.TruncatedEncodingOverruns : Prop :=
  ∀ (om : OpcodeMap) (i : Instr) (n : Nat), om.Injective → i.wellFormed = true → n < i.length →
    decode om ((encode om i).take n) = .error (.streamOverrun (if n = 0 then none else some (i.opcode om)))

/-- 30_encoding.md R72: the illegal encodings are exactly the opcode bytes outside the map and the selectors
0xC0 to 0xFF; every shift-amount, call-target and immediate byte is legal. -/
def Obligations.IllegalEncodingsFaultByName : Prop :=
  (∀ (om : OpcodeMap) (op : Byte) (rest : List Byte),
    decode om (op :: rest) = .error (.unknownOpcode op) ↔ ∀ m, om.byteOf m ≠ op) ∧
  (∀ (op : Byte) (rest : List Byte),
    decode OpcodeMap.table (op :: rest) = .error (.unknownOpcode op) ↔ 0x13 ≤ op.toNat) ∧
  (∀ (op sel : Byte) (rest : List Byte), 0xC0 ≤ sel.toNat ↔ fetchSel op (sel :: rest) = .error (.invalidSelector op sel)) ∧
  (∀ (om : OpcodeMap) (a : Selector) (k : Byte) (rest : List Byte), om.Injective →
    decode om (om.shr :: a.toByte :: k :: rest) = .ok (.shr a k, rest) ∧
    decode om (om.shl :: a.toByte :: k :: rest) = .ok (.shl a k, rest) ∧
    decode om (om.cal :: k :: rest) = .ok (.cal k, rest)) ∧
  ∀ (om : OpcodeMap) (a : Selector) (m rest : List Byte), om.Injective → m.length = a.bank.bytes →
    ∃ imm, decode om (om.lod :: a.toByte :: (m ++ rest)) = .ok (.lod a imm, rest)

/-- 30_encoding.md R66: bits 7:6 of a selector name the bank (0, 1, 2; 3 names none, R67) and bits 5:0 the index. -/
def Obligations.SelectorByteNamesBankAndIndex : Prop :=
  ∀ sel : Byte,
    Selector.ofByte sel =
      if sel.toNat < 0x40 then some ⟨.b32, Fin.ofNat 64 sel.toNat⟩
      else if sel.toNat < 0x80 then some ⟨.b64, Fin.ofNat 64 (sel.toNat - 0x40)⟩
      else if sel.toNat < 0xC0 then some ⟨.b128, Fin.ofNat 64 (sel.toNat - 0x80)⟩
      else none

/-- A few words written out from the formats and the opcode table (30_encoding.md R59, R64; 95_test_vectors.md). -/
def Obligations.WrittenWordsDecode : Prop :=
  decode OpcodeMap.table [0x00] = .ok (.hlt, []) ∧
  decode OpcodeMap.table [0x04, 0x00, 0x41] = .ok (.add ⟨.b32, 0⟩ ⟨.b64, 1⟩, []) ∧
  decode OpcodeMap.table [0x0A, 0x81, 0x7F] = .ok (.shl ⟨.b128, 1⟩ 127, []) ∧
  decode OpcodeMap.table [0x02, 0x02, 0x11, 0x22, 0x33, 0x44, 0xAA] = .ok (.lod ⟨.b32, 2⟩ 0x11223344, [0xAA]) ∧
  decode OpcodeMap.table [0x10, 0xFF] = .ok (.cal 255, []) ∧
  decode OpcodeMap.table [0x12, 0x40] = .ok (.pop ⟨.b64, 0⟩, []) ∧
  decode OpcodeMap.table [0x13] = .error (.unknownOpcode 0x13) ∧
  decode OpcodeMap.table [0x04, 0x00, 0xC1, 0x00] = .error (.invalidSelector 0x04 0xC1)

/-! ## The step -/

/-- 40_execution.md R77: a running step whose bytes at the pc are the encoding of a well-formed instruction is that
instruction's `exec`; nothing is added around it. -/
def Obligations.StepRunsTheDecodedInstruction : Prop :=
  ∀ (s : State) (i : Instr) (rest : List Byte), s.status = .running → s.cur.seg < s.lib.length →
    s.cfg.opcodeMap.Injective → i.wellFormed = true →
    (s.segment s.cur.seg).drop s.cur.pc = encode s.cfg.opcodeMap i ++ rest → step s = exec i s

/-- 30_encoding.md R71; 60_exceptions.md R123, R124: a running step whose bytes do not decode changes the status
alone, to the fault and record of the decoder's error. The record's fields are the decision D9 of the spec. -/
def Obligations.StepRaisesTheDecodersFault : Prop :=
  ∀ s : State, s.status = .running → s.cur.seg < s.lib.length →
    (∀ o, s.decodeHere = .error (.streamOverrun o) → step s = .next (faultedAt s .streamOverrun o none)) ∧
    (∀ op, s.decodeHere = .error (.unknownOpcode op) →
      step s = .next (faultedAt s .unknownOpcode (some op) (some op.toNat))) ∧
    ∀ op sel, s.decodeHere = .error (.invalidSelector op sel) →
      step s = .next (faultedAt s .invalidRegisterSelector (some op) (some sel.toNat))

/-- 40_execution.md R77; 10_state.md R32: a run that has ended has no step. That the model answers it with an outcome
`fault` of its own name is log 7. -/
def Obligations.EndedRunHasNoStep : Prop :=
  (∀ s : State, s.status = .halted → step s = .fault .runHalted) ∧
  (∀ (s : State) (r : FaultRecord), s.status = .faulted r → step s = .fault (.runFaulted r)) ∧
  ∀ s t : State, step s = .next t → s.status = .running

/-- 60_exceptions.md R123, R124; 40_execution.md R79 (b) (decisions D7, D9): a step that faults, in the decoder or in
the instruction, changes the status alone, and the record names the faulting context's segment and pc, the opcode byte
there (none if there is none) and the call depth. -/
def Obligations.FaultChangesTheStatusAlone : Prop :=
  ∀ (s t : State) (r : FaultRecord), step s = .next t → t.status = .faulted r →
    t = { s with status := .faulted r } ∧ r.seg = s.cur.seg ∧ r.pc = s.cur.pc ∧ r.depth = s.frames.length ∧
      r.opcode = s.ifetch s.cur.seg s.cur.pc

/-- 60_exceptions.md R121: which faults the execution of each instruction can raise (its decoding can raise
StreamOverrun and InvalidRegisterSelector besides, see the formats). -/
def Obligations.InstructionsRaiseOnlyTheirFaults : Prop :=
  ∀ (i : Instr) (s t : State) (r : FaultRecord), s.status = .running → exec i s = .next t → t.status = .faulted r →
    (((∃ a b, i = .div a b) ∨ ∃ a b, i = .mod a b) ∧ r.kind = .divideByZero) ∨
    ((∃ k, i = .cal k) ∧ (r.kind = .callTargetOutOfRange ∨ r.kind = .callDepthExceeded)) ∨
    ((∃ a, i = .psh a) ∧ r.kind = .stackOverflow) ∨
    ((∃ a, i = .pop a) ∧ r.kind = .stackUnderflow)

/-- 40_execution.md R78: the decoder is the one source of the next pc. After every instruction other than CAL and HLT
the context goes on behind the instruction; after CAL the callee starts at 0 and the saved caller stands behind the
CAL; after a nested HLT the caller stands at its saved pc. -/
def Obligations.NextPcComesFromTheDecoder : Prop :=
  ∀ (i : Instr) (s t : State), exec i s = .next t → (∀ r, t.status ≠ .faulted r) →
    (i ≠ .hlt → (∀ k, i ≠ .cal k) → t.cur.pc = s.cur.pc + i.length ∧ t.frames = s.frames) ∧
    (∀ k, i = .cal k → t.cur.pc = 0 ∧ ∃ caller, t.frames = caller :: s.frames ∧ caller.pc = s.cur.pc + 2) ∧
    (i = .hlt → ∀ caller rest, s.frames = caller :: rest → t.cur.pc = caller.pc ∧ t.frames = rest)

/-! ## Launch, invariants, the end of a run -/

/-- 70_reset_and_hazards.md R134 (with the spec's decisions D10 and D11 for flags and remainders): every field right
after a launch; `State.reset` is a launch (its library, one empty segment, is the model's choice, log 10). -/
def Obligations.LaunchedStateIsAsTheSpecSays : Prop :=
  (∀ (cfg : Config) (lib : List (List Byte)),
    let s := State.launched cfg lib
    s.lib = lib ∧ s.cur.seg = 0 ∧ s.cur.pc = 0 ∧ (∀ b i, s.cur.reg b i = 0) ∧ s.cur.eq = false ∧ s.cur.lt = false ∧
      s.cur.gt = false ∧ (∀ b, s.cur.rem b = 0) ∧ (∀ a, s.readByte a = none) ∧ s.sp = 0 ∧ s.frames = [] ∧
      s.status = .running) ∧
  State.reset = State.launched defaultConfig [[]]

/-- 70_reset_and_hazards.md R135 (decision D23): a launch is accepted exactly with at least one segment and an empty
scratch stack. That an opcode map that is not injective and a segment beyond MAX_SEGMENT_LEN are refused too is the
model's choice, log 11. -/
def Obligations.LaunchIsRefusedOutsideItsPreconditions : Prop :=
  ∀ (cfg : Config) (lib : List (List Byte)) (stack : List Byte),
    ((∃ s, launch cfg lib stack = .next s) ↔
      lib ≠ [] ∧ stack = [] ∧ cfg.opcodeMap.Injective ∧
        ∀ seg ∈ lib, ∀ m, cfg.maxSegmentLen = some m → seg.length ≤ m) ∧
    (∀ s, launch cfg lib stack = .next s → s = State.launched cfg lib) ∧
    ∀ r, launch cfg lib stack ≠ .fault r

/-- 10_state.md R37: the invariants hold after every launch, so after reset. -/
def Obligations.LaunchedStateMeetsTheInvariant : Prop :=
  (∀ (cfg : Config) (lib : List (List Byte)) (stack : List Byte) (s : State),
    launch cfg lib stack = .next s → s.Inv) ∧ State.reset.Inv

/-- 10_state.md R37: every step keeps the invariants: the stack's bytes are exactly those below SP and within
STACK_CAP, flags are exclusive, every pc lies in its segment and every segment in the library, the depth is within
MAX_CALL_DEPTH, and the call chain's segments strictly decrease outwards to segment 0. -/
def Obligations.StepKeepsTheInvariant : Prop :=
  ∀ s t : State, s.Inv → step s = .next t → t.Inv

/-- Every step keeps the canonical form of the scratch stack's cells (log 4), in every state. -/
def Obligations.StepKeepsTheScratchCanonical : Prop :=
  ∀ s t : State, Memory.wf s.mem → step s = .next t → Memory.wf t.mem

/-- 40_execution.md R77: under the invariants a running machine always has a step; no fault or refusal of the model's
own can stop it. -/
def Obligations.RunningMachineAlwaysSteps : Prop :=
  ∀ s : State, s.Inv → s.status = .running → ∃ t, step s = .next t

/-- 40_execution.md R83, R84: every run ends, with Halted or Faulted, after finitely many steps. -/
def Obligations.EveryRunEnds : Prop :=
  ∀ s : State, s.Inv → ∃ k t, Host.Core.run Sys2Proof.core k s = .next t ∧ State.ended t

/-- 10_state.md R35; 20_memory.md R40: no step writes the library, nor the configuration (log 1). -/
def Obligations.LibraryAndConfigurationNeverChange : Prop :=
  ∀ s t : State, step s = .next t → t.lib = s.lib ∧ t.cfg = s.cfg

/-- 10_state.md R29; 20_memory.md R38, R47: only PSH and POP change SP or any byte of the scratch stack; CAL and HLT
do not. -/
def Obligations.OnlyPushAndPopTouchTheScratchStack : Prop :=
  ∀ (i : Instr) (s t : State), exec i s = .next t → (∀ a, i ≠ .psh a) → (∀ a, i ≠ .pop a) → s.SameScratch t

/-- 10_state.md R22, R23: in a context that goes on, only CMP writes the flags and only DIV a remainder register, and
that only the one of its own bank. -/
def Obligations.OnlyCmpWritesFlagsAndOnlyDivRemainders : Prop :=
  ∀ (i : Instr) (s t : State), exec i s = .next t → i ≠ .hlt → (∀ k, i ≠ .cal k) →
    ((∀ a b, i ≠ .cmp a b) → s.SameFlags t) ∧
    ((∀ a b, i ≠ .div a b) → s.SameRemainders t) ∧
    ∀ a b, i = .div a b → ∀ r, r ≠ a.bank → t.cur.rem r = s.cur.rem r

/-! ## Call and return -/

/-- 40_execution.md R80 (with R81, and 45_call.md R113 for the return): HLT at top level moves the pc past itself and
halts the run; in a nested context it resumes the innermost caller as it was saved. Nothing else changes. -/
def Obligations.HltHaltsOrReturns : Prop :=
  FormN .hlt .hlt 0x00 ∧
  (∀ s : State, s.frames = [] →
    ∃ t, exec .hlt s = .next t ∧ t.status = .halted ∧ t.cur.pc = s.cur.pc + 1 ∧ t.frames = [] ∧
      t.cur.seg = s.cur.seg ∧ s.SameRegisters t ∧ s.SameFlags t ∧ s.SameRemainders t ∧ s.SameScratch t ∧
      t.lib = s.lib ∧ t.cfg = s.cfg) ∧
  ∀ (s : State) (caller : Context) (rest : List Context), s.frames = caller :: rest →
    ∃ t, exec .hlt s = .next t ∧ t.cur = caller ∧ t.frames = rest ∧ t.status = s.status ∧ s.SameScratch t ∧
      t.lib = s.lib ∧ t.cfg = s.cfg

/-- 45_call.md R109 to R112 (relative indexing and the depth limit are the spec's decisions D3, D19; the fresh flags
and remainders D10, D11): CAL saves the caller with the pc behind the operand and starts a fresh context of segment
`seg + 1 + tgt`; a target outside the library faults, and else a frame beyond MAX_CALL_DEPTH. -/
def Obligations.CalCallsAFreshContextOrFaults : Prop :=
  FormT .cal .cal 0x10 ∧
  ∀ (k : Byte) (s : State),
    (s.cur.seg + 1 + k.toNat < s.lib.length → (∀ m, s.cfg.maxCallDepth = some m → s.frames.length + 1 ≤ m) →
      ∃ t, exec (.cal k) s = .next t ∧ t.frames = { s.cur with pc := s.cur.pc + 2 } :: s.frames ∧
        t.cur.seg = s.cur.seg + 1 + k.toNat ∧ t.cur.pc = 0 ∧ (∀ b i, t.cur.reg b i = 0) ∧ t.cur.eq = false ∧
        t.cur.lt = false ∧ t.cur.gt = false ∧ (∀ b, t.cur.rem b = 0) ∧ s.SameScratch t ∧ t.lib = s.lib ∧
        t.cfg = s.cfg ∧ t.status = s.status) ∧
    (s.lib.length ≤ s.cur.seg + 1 + k.toNat →
      Raises (.cal k) s .callTargetOutOfRange (some (s.cur.seg + 1 + k.toNat))) ∧
    (s.cur.seg + 1 + k.toNat < s.lib.length → ∀ m, s.cfg.maxCallDepth = some m → m < s.frames.length + 1 →
      Raises (.cal k) s .callDepthExceeded none)

/-- 10_state.md R30, R31; 45_call.md R114: the frame stack is a stack: a step leaves it alone, or pushes the current
context with its pc moved on, or pops its top into the current context. No step changes a waiting caller. -/
def Obligations.FramesAreAStack : Prop :=
  ∀ s t : State, step s = .next t →
    t.frames = s.frames ∨
    (∃ caller, t.frames = caller :: s.frames ∧ caller = { s.cur with pc := s.cur.pc + 2 }) ∨
    s.frames = t.cur :: t.frames

/-- 10_state.md R36: from a CAL that made a call to the first step after which the depth is again what it was, however
many calls and returns lie between, the caller is exactly as it was, with its pc behind the CAL. -/
def Obligations.ReturnRestoresTheCaller : Prop :=
  ∀ (s t u : State) (tgt : Byte) (k : Nat), exec (.cal tgt) s = .next t → t.frames.length = s.frames.length + 1 →
    Host.Core.run Sys2Proof.core k t = .next u → (State.frames u).length = s.frames.length →
    (∀ j < k, ∀ v, Host.Core.run Sys2Proof.core j t = .next v → s.frames.length < (State.frames v).length) →
    State.cur u = { s.cur with pc := s.cur.pc + 2 } ∧ State.frames u = s.frames

/-- 10_state.md R36: a callee learns nothing of its callers: replace the saved callers by any others, as many, and a
step that does not return to one does exactly the same. -/
def Obligations.StepDoesNotSeeTheCallers : Prop :=
  ∀ (s t : State) (fs : List Context), fs.length = s.frames.length → step s = .next t →
    s.frames.length ≤ t.frames.length →
    step { s with frames := fs } =
      .next { t with frames := t.frames.take (t.frames.length - s.frames.length) ++ fs }

/-! ## NOP, LOD, arithmetic -/

/-- 40_execution.md R82: NOP moves the pc and does nothing else. -/
def Obligations.NopOnlyAdvances : Prop :=
  FormN .nop .nop 0x01 ∧
  ∀ s : State, ∃ t, exec .nop s = .next t ∧ t.cur.pc = s.cur.pc + 1 ∧ s.SameRegisters t ∧ s.SameFlags t ∧
    s.SameRemainders t ∧ s.SameScratch t ∧ s.SameRun t

/-- 41_load.md R87: LOD's encoding, its faults in their order, and its effect: the destination holds the immediate,
byte `k` of the stream at bits `8(B-1-k)+7 .. 8(B-1-k)`, neither extended nor truncated. The immediates are those the
encoding admits, of exactly the bank's width; what the model makes of any other is its own choice (log 31). -/
def Obligations.LodLoadsTheImmediate : Prop :=
  (OpcodeMap.table.byteOf .lod = 0x02 ∧ (∀ a imm, (Instr.lod a imm).length = 2 + a.bank.width / 8) ∧
    ∀ om : OpcodeMap, om.Injective →
      decode om [] = .error (.streamOverrun none) ∧
      decode om [om.byteOf .lod] = .error (.streamOverrun (some (om.byteOf .lod))) ∧
      (∀ x rest, 0xC0 ≤ x.toNat →
        decode om (om.byteOf .lod :: x :: rest) = .error (.invalidSelector (om.byteOf .lod) x)) ∧
      (∀ (a : Selector) (m : List Byte), m.length < a.bank.width / 8 →
        decode om (om.byteOf .lod :: a.toByte :: m) = .error (.streamOverrun (some (om.byteOf .lod)))) ∧
      ∀ (a : Selector) (m rest : List Byte), m.length = a.bank.width / 8 →
        ∃ imm, decode om (om.byteOf .lod :: a.toByte :: (m ++ rest)) = .ok (.lod a imm, rest) ∧
          (Instr.lod a imm).wellFormed = true ∧ encode om (.lod a imm) = om.byteOf .lod :: a.toByte :: m ∧
          ∀ k < a.bank.width / 8, m[k]? = some (imm.extractLsb' (8 * (a.bank.width / 8 - 1 - k)) 8)) ∧
  ∀ (a : Selector) (imm : BitVec 128) (s : State), (Instr.lod a imm).wellFormed = true →
    ∃ v, v.toNat = imm.toNat ∧ WritesOnly (.lod a imm) s a v (2 + a.bank.width / 8)

/-- 41_load.md R88: after a step that runs a LOD of the bytes `m` into bank b, the register reads, unsigned, `BE(m)`,
and signed `BE(m) - 2^W` when the first byte is 0x80 or more, else `BE(m)`. -/
def Obligations.LodReadsBackItsBytes : Prop :=
  ∀ (s : State) (a : Selector) (m rest : List Byte), s.status = .running → s.cur.seg < s.lib.length →
    s.cfg.opcodeMap.Injective → m.length = a.bank.width / 8 →
    s.stream = s.cfg.opcodeMap.lod :: a.toByte :: (m ++ rest) →
    ∃ t, step s = .next t ∧
      (t.cur.reg a.bank a.index).toNat = m.foldl (fun acc b => acc * 256 + b.toNat) 0 ∧
      (t.cur.reg a.bank a.index).toInt =
        if 0x80 ≤ (m.headD 0).toNat then (m.foldl (fun acc b => acc * 256 + b.toNat) 0 : Nat) - (2 : Int) ^ a.bank.width
        else (m.foldl (fun acc b => acc * 256 + b.toNat) 0 : Nat)

/-- 42_arithmetic.md R91: INC's encoding, faults and effect; that it wraps is the spec's decision D20. -/
def Obligations.IncAddsOne : Prop :=
  FormR .inc .inc 0x03 ∧
  ∀ (a : Selector) (s : State),
    WritesOnly (.inc a) s a (BitVec.ofInt _ ((s.cur.reg a.bank a.index).toInt + 1)) 2

/-- 42_arithmetic.md R92: ADD's encoding, faults and effect; that operand b is read in a's bank is the spec's decision
D4, that the sum wraps D20. -/
def Obligations.AddAddsInTheBankOfA : Prop :=
  FormRR .add .add 0x04 ∧
  ∀ (a b : Selector) (s : State),
    WritesOnly (.add a b) s a
      (BitVec.ofInt _ ((s.cur.reg a.bank a.index).toInt + (s.cur.reg a.bank b.index).toInt)) 3

/-- 42_arithmetic.md R93: SUB's encoding, faults and effect (decisions D4, D20, as for ADD). -/
def Obligations.SubSubtractsInTheBankOfA : Prop :=
  FormRR .sub .sub 0x05 ∧
  ∀ (a b : Selector) (s : State),
    WritesOnly (.sub a b) s a
      (BitVec.ofInt _ ((s.cur.reg a.bank a.index).toInt - (s.cur.reg a.bank b.index).toInt)) 3

/-- 42_arithmetic.md R94: MUL's encoding, faults and effect (decisions D4, D20, as for ADD). -/
def Obligations.MulMultipliesInTheBankOfA : Prop :=
  FormRR .mul .mul 0x06 ∧
  ∀ (a b : Selector) (s : State),
    WritesOnly (.mul a b) s a
      (BitVec.ofInt _ ((s.cur.reg a.bank a.index).toInt * (s.cur.reg a.bank b.index).toInt)) 3

/-- 42_arithmetic.md R95 (rounding and MIN / -1 are the spec's decisions D12, D13): DIV writes quotient and remainder,
the remainder to its own bank's remainder register; a zero divisor faults and writes nothing. -/
def Obligations.DivWritesQuotientAndRemainder : Prop :=
  FormRR .div .div 0x07 ∧
  ∀ (a b : Selector) (s : State),
    let x := (s.cur.reg a.bank a.index).toInt
    let y := (s.cur.reg a.bank b.index).toInt
    (y ≠ 0 → ∃ t, exec (.div a b) s = .next t ∧
      t.cur.reg a.bank a.index = BitVec.ofInt _ (x.tdiv y) ∧
      t.cur.rem a.bank = BitVec.ofInt _ (x - y * x.tdiv y) ∧
      (∀ r, r ≠ a.bank → t.cur.rem r = s.cur.rem r) ∧
      s.SameRegistersExcept t a.bank a.index ∧ s.SameFlags t ∧ s.SameScratch t ∧ s.SameRun t ∧
      t.cur.pc = s.cur.pc + 3) ∧
    (y = 0 → Raises (.div a b) s .divideByZero none)

/-- 42_arithmetic.md R96 (decisions D12, D13): MOD writes the remainder to the destination and no remainder register;
a zero divisor faults. -/
def Obligations.ModWritesTheRemainder : Prop :=
  FormRR .mod .mod 0x08 ∧
  ∀ (a b : Selector) (s : State),
    let x := (s.cur.reg a.bank a.index).toInt
    let y := (s.cur.reg a.bank b.index).toInt
    (y ≠ 0 → WritesOnly (.mod a b) s a (BitVec.ofInt _ (x - y * x.tdiv y)) 3) ∧
    (y = 0 → Raises (.mod a b) s .divideByZero none)

/-- 42_arithmetic.md R97: DIV and MOD agree, and quotient and remainder give the dividend back: modulo 2^W always, over
the integers except for MIN / -1; the remainder is smaller than the divisor and zero or of the dividend's sign. -/
def Obligations.DivisionLawHolds : Prop :=
  ∀ (a b : Selector) (s : State), (s.cur.reg a.bank b.index).toInt ≠ 0 →
    ∃ t u, exec (.div a b) s = .next t ∧ exec (.mod a b) s = .next u ∧
      let x := s.cur.reg a.bank a.index
      let y := s.cur.reg a.bank b.index
      let q := t.cur.reg a.bank a.index
      let r := t.cur.rem a.bank
      u.cur.reg a.bank a.index = r ∧ x = q * y + r ∧
      (¬ (x.toInt = -(2 : Int) ^ (a.bank.width - 1) ∧ y.toInt = -1) → x.toInt = q.toInt * y.toInt + r.toInt) ∧
      r.toInt.natAbs < y.toInt.natAbs ∧
      (r.toInt = 0 ∨ (0 < r.toInt ∧ 0 < x.toInt) ∨ (r.toInt < 0 ∧ x.toInt < 0))

/-! ## Shifts, logic, compare -/

/-- 43_shift_logic.md R98, R99 (masking and the sign fill are the spec's decisions D14, D15): SHR divides the signed
value by 2^k, rounding down, with `k = shamt mod W`; no amount faults. -/
def Obligations.ShrShiftsArithmetically : Prop :=
  FormRS .shr .shr 0x09 ∧
  ∀ (a : Selector) (shamt : Byte) (s : State),
    let x := s.cur.reg a.bank a.index
    let v := BitVec.ofInt a.bank.width (x.toInt.fdiv (2 ^ (shamt.toNat % a.bank.width)))
    WritesOnly (.shr a shamt) s a v 3 ∧
      ∀ j < a.bank.width, v.getLsbD j =
        if j + shamt.toNat % a.bank.width < a.bank.width then x.getLsbD (j + shamt.toNat % a.bank.width) else x.msb

/-- 43_shift_logic.md R98, R100 (decision D14): SHL multiplies by 2^k, `k = shamt mod W`; bits shifted out are lost. -/
def Obligations.ShlShiftsLeft : Prop :=
  FormRS .shl .shl 0x0A ∧
  ∀ (a : Selector) (shamt : Byte) (s : State),
    let x := s.cur.reg a.bank a.index
    let v := BitVec.ofNat a.bank.width (x.toNat * 2 ^ (shamt.toNat % a.bank.width))
    WritesOnly (.shl a shamt) s a v 3 ∧
      ∀ j < a.bank.width, v.getLsbD j =
        (decide (shamt.toNat % a.bank.width ≤ j) && x.getLsbD (j - shamt.toNat % a.bank.width))

/-- 43_shift_logic.md R101: AND's encoding, faults and effect, bit by bit; b is read in a's bank (decision D4). -/
def Obligations.AndIsBitwise : Prop :=
  FormRR .and .and 0x0B ∧
  ∀ (a b : Selector) (s : State), ∃ v, WritesOnly (.and a b) s a v 3 ∧
    ∀ j < a.bank.width,
      v.getLsbD j = ((s.cur.reg a.bank a.index).getLsbD j && (s.cur.reg a.bank b.index).getLsbD j)

/-- 43_shift_logic.md R102: OR's encoding, faults and effect, bit by bit; b is read in a's bank (decision D4). -/
def Obligations.OrIsBitwise : Prop :=
  FormRR .or .or 0x0C ∧
  ∀ (a b : Selector) (s : State), ∃ v, WritesOnly (.or a b) s a v 3 ∧
    ∀ j < a.bank.width,
      v.getLsbD j = ((s.cur.reg a.bank a.index).getLsbD j || (s.cur.reg a.bank b.index).getLsbD j)

/-- 43_shift_logic.md R103: XOR's encoding, faults and effect, bit by bit; b is read in a's bank (decision D4). -/
def Obligations.XorIsBitwise : Prop :=
  FormRR .xor .xor 0x0D ∧
  ∀ (a b : Selector) (s : State), ∃ v, WritesOnly (.xor a b) s a v 3 ∧
    ∀ j < a.bank.width,
      v.getLsbD j = ((s.cur.reg a.bank a.index).getLsbD j ^^ (s.cur.reg a.bank b.index).getLsbD j)

/-- 43_shift_logic.md R104: NOT's encoding, faults and effect: every bit inverted; as an integer, `-A - 1`. -/
def Obligations.NotInvertsEveryBit : Prop :=
  FormR .not .not 0x0E ∧
  ∀ (a : Selector) (s : State), ∃ v, WritesOnly (.not a) s a v 2 ∧
    (∀ j < a.bank.width, v.getLsbD j = !(s.cur.reg a.bank a.index).getLsbD j) ∧
    v.toInt = -(s.cur.reg a.bank a.index).toInt - 1

/-- 44_compare.md R106: CMP's encoding, faults and effect: exactly one flag is set, by the signed comparison in a's
bank (b is read there by decision D4), whatever the flags held; no register or remainder register changes. -/
def Obligations.CmpSetsExactlyOneFlag : Prop :=
  FormRR .cmp .cmp 0x0F ∧
  ∀ (a b : Selector) (s : State), ∃ t, exec (.cmp a b) s = .next t ∧
    (t.cur.eq = true ↔ (s.cur.reg a.bank a.index).toInt = (s.cur.reg a.bank b.index).toInt) ∧
    (t.cur.lt = true ↔ (s.cur.reg a.bank a.index).toInt < (s.cur.reg a.bank b.index).toInt) ∧
    (t.cur.gt = true ↔ (s.cur.reg a.bank a.index).toInt > (s.cur.reg a.bank b.index).toInt) ∧
    [t.cur.eq, t.cur.lt, t.cur.gt].count true = 1 ∧
    s.SameRegisters t ∧ s.SameRemainders t ∧ s.SameScratch t ∧ s.SameRun t ∧ t.cur.pc = s.cur.pc + 3

/-! ## Scratch stack -/

/-- 46_stack.md R115 (the true stack and the capacity are the spec's decisions D17, D18): PSH writes the register's
bytes at SP and above, least significant first, and advances SP; every other byte reads as before; a push beyond
STACK_CAP faults and writes nothing. -/
def Obligations.PshPushesLittleEndian : Prop :=
  FormR .psh .psh 0x11 ∧
  ∀ (a : Selector) (s : State),
    ((∀ cap, s.cfg.stackCap = some cap → s.sp + a.bank.width / 8 ≤ cap) →
      ∃ t, exec (.psh a) s = .next t ∧ t.sp = s.sp + a.bank.width / 8 ∧
        (∀ k < a.bank.width / 8,
          t.readByte (s.sp + k) = some ((s.cur.reg a.bank a.index).extractLsb' (8 * k) 8)) ∧
        (∀ x, x < s.sp ∨ s.sp + a.bank.width / 8 ≤ x → t.readByte x = s.readByte x) ∧
        s.SameRegisters t ∧ s.SameFlags t ∧ s.SameRemainders t ∧ s.SameRun t ∧ t.cur.pc = s.cur.pc + 2) ∧
    ∀ cap, s.cfg.stackCap = some cap → cap < s.sp + a.bank.width / 8 → Raises (.psh a) s .stackOverflow none

/-- 46_stack.md R116 (that the value replaces the register is the spec's decision D16): POP reads the bytes below SP,
least significant first, into the register and drops them; the bytes below them stay. With fewer live bytes it faults.
In a state no run reaches, where an offset below SP holds no byte, the model stops by name (log 5). -/
def Obligations.PopReplacesTheRegister : Prop :=
  FormR .pop .pop 0x12 ∧
  ∀ (a : Selector) (s : State),
    let n := a.bank.width / 8
    (n ≤ s.sp → (∀ k < n, s.readByte (s.sp - n + k) ≠ none) →
      ∃ t, exec (.pop a) s = .next t ∧ t.sp = s.sp - n ∧
        (∀ k < n, s.readByte (s.sp - n + k) = some ((t.cur.reg a.bank a.index).extractLsb' (8 * k) 8)) ∧
        (∀ x, x < s.sp - n → t.readByte x = s.readByte x) ∧ (∀ x, s.sp - n ≤ x → t.readByte x = none) ∧
        s.SameRegistersExcept t a.bank a.index ∧ s.SameFlags t ∧ s.SameRemainders t ∧ s.SameRun t ∧
        t.cur.pc = s.cur.pc + 2) ∧
    (s.sp < n → Raises (.pop a) s .stackUnderflow none) ∧
    (n ≤ s.sp → (∃ k < n, s.readByte (s.sp - n + k) = none) → exec (.pop a) s = .fault .scratchHole)

/-- 46_stack.md R117: a PSH followed by a POP of a register of the same bank puts the pushed bit pattern there and
restores the scratch stack and SP. -/
def Obligations.PopAfterPshRestores : Prop :=
  ∀ (a b : Selector) (s : State), b.bank = a.bank → s.Inv →
    (∀ cap, s.cfg.stackCap = some cap → s.sp + a.bank.width / 8 ≤ cap) →
    ∃ t u, exec (.psh a) s = .next t ∧ exec (.pop b) t = .next u ∧ u.mem = s.mem ∧ u.sp = s.sp ∧
      (u.cur.reg b.bank b.index).toNat = (s.cur.reg a.bank a.index).toNat ∧
      s.SameRegistersExcept u b.bank b.index ∧ s.SameFlags u ∧ s.SameRemainders u ∧ s.SameRun u

/-- 46_stack.md R118; 20_memory.md R46: any sequence of pushes, of any widths, followed by pops of the same registers
in reverse order restores every register, the scratch stack and SP; only the pc has moved. -/
def Obligations.PushesThenPopsInReverseRestore : Prop :=
  ∀ (regs : List Selector) (s : State), s.Inv →
    (∀ cap, s.cfg.stackCap = some cap → s.sp + (regs.map fun a => a.bank.width / 8).sum ≤ cap) →
    execAll (regs.map .psh ++ regs.reverse.map .pop) s =
      .next { s with cur := { s.cur with pc := s.cur.pc + 4 * regs.length } }

/-- 20_memory.md R51: the stack holds untyped bytes. Two 32-bit pushes of `a` then `b` and a 64-bit pop give `b` in the
high and `a` in the low 32 bits; a 64-bit push and two 32-bit pops give first the high, then the low half. -/
def Obligations.MixedWidthsShareTheBytes : Prop :=
  ∀ (i j k : Fin 64) (s : State), s.Inv → (∀ cap, s.cfg.stackCap = some cap → s.sp + 8 ≤ cap) →
    (∃ t, execAll [.psh ⟨.b32, i⟩, .psh ⟨.b32, j⟩, .pop ⟨.b64, k⟩] s = .next t ∧
      (t.cur.reg .b64 k).toNat = (s.cur.reg .b32 i).toNat + 2 ^ 32 * (s.cur.reg .b32 j).toNat ∧ t.sp = s.sp) ∧
    (i ≠ j → ∃ t, execAll [.psh ⟨.b64, k⟩, .pop ⟨.b32, i⟩, .pop ⟨.b32, j⟩] s = .next t ∧
      (s.cur.reg .b64 k).toNat = (t.cur.reg .b32 j).toNat + 2 ^ 32 * (t.cur.reg .b32 i).toNat ∧ t.sp = s.sp)

/-! ## Host interface -/

/-- 10_state.md R15 (e); 40_execution.md R84 (decision D24): after the end of a run the observation port gives the
status, the top-level context, the scratch stack and SP. Two clauses are the model's own choice (log 30): that the port
gives nothing while the run goes on, and that after a fault in a nested context the top-level context is the outermost
saved one. -/
def Obligations.ObservationOnlyAfterTheEnd : Prop :=
  ∀ s : State,
    (s.status = .running → s.observe = none) ∧
    (s.ended → ∃ o, s.observe = some o ∧ o.status = s.status ∧ o.mem = s.mem ∧ o.sp = s.sp ∧
      (s.frames = [] → o.top = s.cur) ∧ ∀ fs c, s.frames = fs ++ [c] → o.top = c)

/-- Log 12 (the model's own way of loading a program): a word placed where `step` fetches is decoded and run by the
very next step, in every state that uses the default opcode map. -/
def Obligations.PlacedWordRunsNext : Prop :=
  ∀ (s : State) (nbits w : Nat) (i : Instr), s.cfg.opcodeMap = OpcodeMap.table →
    decodeTableWord nbits w = some i → step (s.withFetchWord nbits w) = exec i (s.withFetchWord nbits w)

/-! ## The model's own choice for a LOD no bytes decode to -/

/-- Log 31 (the model's own choice, no rule of the spec): a LOD whose immediate is wider than its bank, which the decoder
never answers, writes the immediate's low W bits and nothing else. -/
def Obligations.IllFormedLodWritesTheLowBits : Prop :=
  ∀ (a : Selector) (imm : BitVec 128) (s : State), (Instr.lod a imm).wellFormed = false →
    WritesOnly (.lod a imm) s a (imm.setWidth a.bank.width) (2 + a.bank.width / 8)
end

