-- ==== Sys2Proof/Laws/Bytes.lean ====
section
/-! SUPPORT. The byte-order helpers: lengths, and that bytes and numbers determine each other. -/

namespace Sys2Proof

@[simp] theorem leBytes_length (n x : Nat) : (leBytes n x).length = n := by
  induction n generalizing x with
  | zero => rfl
  | succ n ih => simp [leBytes, ih]

@[simp] theorem beBytes_length (n x : Nat) : (beBytes n x).length = n := by simp [beBytes]

theorem leNat_leBytes (n x : Nat) : leNat (leBytes n x) = x % 256 ^ n := by
  induction n generalizing x with
  | zero => simp [leBytes, leNat, Nat.mod_one]
  | succ n ih =>
    simp only [leBytes, leNat, ih, BitVec.toNat_ofNat]
    rw [Nat.pow_succ 256 n, Nat.mul_comm (256 ^ n), Nat.mod_mul]

theorem leNat_lt (bs : List Byte) : leNat bs < 256 ^ bs.length := by
  induction bs with
  | nil => simp [leNat]
  | cons b bs ih =>
    have hb := b.isLt
    simp only [leNat, List.length_cons, Nat.pow_succ]
    omega

theorem leBytes_leNat (bs : List Byte) : leBytes bs.length (leNat bs) = bs := by
  induction bs with
  | nil => rfl
  | cons b bs ih =>
    have hb := b.isLt
    have hdiv : (b.toNat + 256 * leNat bs) / 256 = leNat bs := by omega
    have hmod : BitVec.ofNat 8 (b.toNat + 256 * leNat bs) = b := by
      apply BitVec.eq_of_toNat_eq
      simp only [BitVec.toNat_ofNat]
      omega
    simp only [List.length_cons, leNat, leBytes, hdiv, hmod, ih]

theorem beNat_beBytes (n x : Nat) : beNat (beBytes n x) = x % 256 ^ n := by
  simp [beNat, beBytes, leNat_leBytes]

theorem beNat_lt (bs : List Byte) : beNat bs < 256 ^ bs.length := by
  simpa [beNat] using leNat_lt bs.reverse

theorem beBytes_beNat (bs : List Byte) : beBytes bs.length (beNat bs) = bs := by
  have h := leBytes_leNat bs.reverse
  rw [List.length_reverse] at h
  simp [beBytes, beNat, h]

/-- Byte `k` of the little-endian bytes of `x`. -/
theorem leBytes_getElem? (n x k : Nat) (hk : k < n) :
    (leBytes n x)[k]? = some (BitVec.ofNat 8 (x / 256 ^ k)) := by
  induction n generalizing x k with
  | zero => omega
  | succ n ih =>
    cases k with
    | zero => simp [leBytes]
    | succ k =>
      simp only [leBytes, List.getElem?_cons_succ, ih (x / 256) k (by omega), Nat.div_div_eq_div_mul]
      rw [Nat.pow_succ, Nat.mul_comm]

/-- Byte `k` of a value, as a bit field. -/
theorem ofNat_div_eq_extract {w : Nat} (v : BitVec w) (k : Nat) :
    BitVec.ofNat 8 (v.toNat / 256 ^ k) = v.extractLsb' (8 * k) 8 := by
  apply BitVec.eq_of_toNat_eq
  rw [BitVec.toNat_ofNat, BitVec.extractLsb'_toNat, Nat.shiftRight_eq_div_pow, Nat.pow_mul]

/-- Byte `k` of a number read little-endian. -/
theorem extract_ofNat_leNat (w : Nat) (bs : List Byte) (k : Nat) (hk : k < bs.length) (hw : 8 * bs.length ≤ w) :
    bs[k]? = some ((BitVec.ofNat w (leNat bs)).extractLsb' (8 * k) 8) := by
  have hlt : leNat bs < 2 ^ w :=
    calc leNat bs < 256 ^ bs.length := leNat_lt bs
      _ = 2 ^ (8 * bs.length) := by rw [Nat.pow_mul]
      _ ≤ 2 ^ w := Nat.pow_le_pow_right (by decide) hw
  rw [← ofNat_div_eq_extract, BitVec.toNat_ofNat, Nat.mod_eq_of_lt hlt, ← leBytes_getElem? _ _ _ hk, leBytes_leNat]

theorem Bank.pow_bytes (b : Bank) : 256 ^ b.bytes = 2 ^ b.width := by cases b <;> decide

@[simp] theorem Bank.eight_mul_bytes (b : Bank) : 8 * b.bytes = b.width := by cases b <;> rfl

@[simp] theorem Bank.width_div_eight (b : Bank) : b.width / 8 = b.bytes := by cases b <;> rfl

theorem Bank.bytes_pos (b : Bank) : 0 < b.bytes := by cases b <;> decide

theorem Bank.width_pos (b : Bank) : 0 < b.width := by cases b <;> decide

theorem Bank.width_le (b : Bank) : b.width ≤ 128 := by cases b <;> decide

end Sys2Proof
end

