-- ==== Sys2Proof/Laws/Alu.lean ====
section
/-! SUPPORT. The values the instructions compute, in the terms of BitVec arithmetic, and the division law
(42_arithmetic.md R89, R97; 43_shift_logic.md R98 to R100). -/

namespace Sys2Proof.Machine

variable {w : Nat} (x y : BitVec w)

theorem aluInc_eq : aluInc x = x + 1 := by
  apply BitVec.eq_of_toInt_eq
  rw [aluInc, BitVec.toInt_ofInt, BitVec.toInt_add]
  have h1 : (1 : BitVec w) = BitVec.ofInt w 1 := rfl
  rw [h1, BitVec.toInt_ofInt, Int.add_bmod_bmod]

theorem aluAdd_eq : aluAdd x y = x + y := by
  apply BitVec.eq_of_toInt_eq
  rw [aluAdd, BitVec.toInt_ofInt, BitVec.toInt_add]

theorem aluSub_eq : aluSub x y = x - y := by
  apply BitVec.eq_of_toInt_eq
  rw [aluSub, BitVec.toInt_ofInt, BitVec.toInt_sub]

theorem aluMul_eq : aluMul x y = x * y := by
  apply BitVec.eq_of_toInt_eq
  rw [aluMul, BitVec.toInt_ofInt, BitVec.toInt_mul]

/-- The remainder of truncating division is Lean's `Int.tmod`. -/
theorem trem_eq_tmod (a b : Int) : trem a b = a.tmod b := by
  have := Int.mul_tdiv_add_tmod a b
  unfold trem
  omega

theorem aluShl_eq (k : Nat) : aluShl x k = x <<< k := by
  apply BitVec.eq_of_toNat_eq
  rw [aluShl, BitVec.toNat_ofNat, BitVec.toNat_shiftLeft, Nat.shiftLeft_eq]

theorem aluShr_eq (k : Nat) : aluShr x k = x.sshiftRight k := by
  apply BitVec.eq_of_toInt_eq
  rw [BitVec.toInt_sshiftRight, Int.shiftRight_eq_div_pow, aluShr, BitVec.toInt_ofInt,
    Int.fdiv_eq_ediv_of_nonneg _ (by positivity)]
  have hcast : ((2 : Int) ^ k) = (((2 ^ k : Nat) : Nat) : Int) := by norm_cast
  rw [hcast]
  have h := BitVec.toInt_sshiftRight (x := x) (n := k)
  rw [Int.shiftRight_eq_div_pow] at h
  rw [← h, BitVec.toInt_bmod_cancel]

theorem flagEq_eq : flagEq x y = (x == y) := by
  unfold flagEq
  by_cases h : x = y
  · simp [h]
  · have : ¬ x.toInt = y.toInt := fun h' => h (BitVec.eq_of_toInt_eq h')
    simp [h, this]

theorem flagLt_eq : flagLt x y = x.slt y := by rfl

theorem flagGt_eq : flagGt x y = y.slt x := by rfl

/-- The effective shift amount is less than the width (43_shift_logic.md R98). -/
theorem shiftAmount_lt (b : Bank) (shamt : Byte) : shiftAmount b.width shamt < b.width :=
  Nat.mod_lt _ b.width_pos

/-! ## Values on the scratch stack -/

@[simp] theorem pushBytes_length (b : Bank) (v : BitVec b.width) : (pushBytes b v).length = b.bytes := by
  simp [pushBytes]

/-- A value pushed and popped at the same width is the same value (46_stack.md R117). -/
@[simp] theorem popValue_pushBytes (b : Bank) (v : BitVec b.width) : popValue b (pushBytes b v) = v := by
  apply BitVec.eq_of_toNat_eq
  rw [popValue, pushBytes, leNat_leBytes, BitVec.toNat_ofNat, Bank.pow_bytes, Nat.mod_mod,
    Nat.mod_eq_of_lt v.isLt]

/-- Byte `k` that PSH writes is bits `8k+7 .. 8k` of the value (46_stack.md R115). -/
theorem pushBytes_getElem? (b : Bank) (v : BitVec b.width) {k : Nat} (hk : k < b.bytes) :
    (pushBytes b v)[k]? = some (v.extractLsb' (8 * k) 8) := by
  rw [pushBytes, leBytes_getElem? _ _ _ hk, ofNat_div_eq_extract]

/-- Byte `k` that POP reads is bits `8k+7 .. 8k` of the value (46_stack.md R116). -/
theorem popValue_extract (b : Bank) {m : List Byte} (hm : m.length = b.bytes) {k : Nat} (hk : k < b.bytes) :
    m[k]? = some ((popValue b m).extractLsb' (8 * k) 8) := by
  rw [popValue]
  exact extract_ofNat_leNat _ _ _ (by omega) (by rw [hm, Bank.eight_mul_bytes])

end Sys2Proof.Machine
end

