-- ==== Sys2Proof/Laws/Decode.lean ====
section
/-! SUPPORT. The decoder's parts: selectors, opcodes, and one lemma for each format saying what the decoder makes of
the encoded operands and what bytes it accepted. -/

namespace Sys2Proof

/-! ## Selectors -/

@[simp] theorem Selector.ofByte_toByte (s : Selector) : Selector.ofByte s.toByte = some s := by
  obtain ⟨b, i⟩ := s
  cases b <;> revert i <;> decide

theorem Selector.toByte_of_ofByte {sel : Byte} {s : Selector} (h : Selector.ofByte sel = some s) :
    s.toByte = sel := by
  have key : ∀ x : Byte, (Selector.ofByte x).map Selector.toByte = none ∨
      (Selector.ofByte x).map Selector.toByte = some x := by decide
  rcases key sel with hn | hs
  · simp [h] at hn
  · simpa [h] using hs

/-- A selector byte is refused exactly when its bank bits are 3 (30_encoding.md R67). -/
theorem Selector.ofByte_eq_none_iff (sel : Byte) : Selector.ofByte sel = none ↔ 0xC0 ≤ sel.toNat := by
  revert sel; decide

/-! ## Opcodes -/

theorem Mnemonic.mem_all (m : Mnemonic) : m ∈ Mnemonic.all := by cases m <;> decide

/-- An injective map gives back the mnemonic of a mnemonic's byte. -/
theorem OpcodeMap.mnemonicOf_byteOf {om : OpcodeMap} (h : om.Injective) (m : Mnemonic) :
    om.mnemonicOf (om.byteOf m) = some m := by
  have inj : ∀ n, om.byteOf n = om.byteOf m → n = m := fun n hn =>
    List.inj_on_of_nodup_map h (Mnemonic.mem_all n) (Mnemonic.mem_all m) hn
  unfold OpcodeMap.mnemonicOf
  cases hf : Mnemonic.all.find? fun n => om.byteOf n == om.byteOf m with
  | none =>
    have := List.find?_eq_none.mp hf m (Mnemonic.mem_all m)
    simp at this
  | some n =>
    have := List.find?_some hf
    rw [inj n (by simpa using this)]

theorem OpcodeMap.byteOf_of_mnemonicOf {om : OpcodeMap} {op : Byte} {m : Mnemonic} (h : om.mnemonicOf op = some m) :
    om.byteOf m = op := by
  have := List.find?_some h
  simpa using this

theorem OpcodeMap.mnemonicOf_eq_none_iff {om : OpcodeMap} {op : Byte} :
    om.mnemonicOf op = none ↔ ∀ m, om.byteOf m ≠ op := by
  unfold OpcodeMap.mnemonicOf
  rw [List.find?_eq_none]
  constructor
  · intro h m hm
    exact h m (Mnemonic.mem_all m) (by simpa using hm)
  · intro h m _
    simpa using h m

theorem OpcodeMap.table_injective : OpcodeMap.table.Injective := by decide

/-- The decoder on the opcode byte of a mnemonic goes on with that mnemonic's operands (30_encoding.md R71). -/
theorem decode_byteOf {om : OpcodeMap} (h : om.Injective) (m : Mnemonic) (bs : List Byte) :
    decode om (om.byteOf m :: bs) = decodeOperands (om.byteOf m) m bs := by
  simp [decode, OpcodeMap.mnemonicOf_byteOf h]

/-! ## Operands: what the parts of the decoder answer -/

@[simp] theorem fetchSel_toByte (op : Byte) (s : Selector) (bs : List Byte) :
    fetchSel op (s.toByte :: bs) = .ok (s, bs) := by simp [fetchSel]

@[simp] theorem fetchSel_nil (op : Byte) : fetchSel op [] = .error (.streamOverrun (some op)) := rfl

theorem fetchSel_invalid (op : Byte) {sel : Byte} (h : Selector.ofByte sel = none) (bs : List Byte) :
    fetchSel op (sel :: bs) = .error (.invalidSelector op sel) := by simp [fetchSel, h]

@[simp] theorem fetchByte_nil (op : Byte) : fetchByte op [] = .error (.streamOverrun (some op)) := rfl

@[simp] theorem fetchByte_cons (op b : Byte) (bs : List Byte) : fetchByte op (b :: bs) = .ok (b, bs) := rfl

theorem fetch_append (op : Byte) (xs ys : List Byte) : fetch op xs.length (xs ++ ys) = .ok (xs, ys) := by
  simp [fetch]

theorem fetch_short (op : Byte) {n : Nat} {bs : List Byte} (h : bs.length < n) :
    fetch op n bs = .error (.streamOverrun (some op)) := by
  simp [fetch, Nat.not_le.mpr h]

theorem fetchSel_ok {op : Byte} {bs rest : List Byte} {s : Selector} (h : fetchSel op bs = .ok (s, rest)) :
    bs = s.toByte :: rest := by
  cases bs with
  | nil => simp at h
  | cons b bs =>
    unfold fetchSel at h
    cases hs : Selector.ofByte b with
    | none => simp [hs] at h
    | some s' =>
      simp only [hs, Except.ok.injEq, Prod.mk.injEq] at h
      rw [← h.1, ← h.2, Selector.toByte_of_ofByte hs]

theorem fetchByte_ok {op b : Byte} {bs rest : List Byte} (h : fetchByte op bs = .ok (b, rest)) : bs = b :: rest := by
  cases bs with
  | nil => simp at h
  | cons x xs => simpa using h

theorem fetch_ok {op : Byte} {n : Nat} {bs xs rest : List Byte} (h : fetch op n bs = .ok (xs, rest)) :
    bs = xs ++ rest ∧ xs.length = n := by
  unfold fetch at h
  split at h
  · rename_i hle
    simp only [Except.ok.injEq, Prod.mk.injEq] at h
    rw [← h.1, ← h.2]
    simp [hle]
  · simp at h

/-- Format R accepts exactly a selector byte. -/
theorem decodeR_ok {mk : Selector → Instr} {op : Byte} {bs rest : List Byte} {i : Instr}
    (h : decodeR mk op bs = .ok (i, rest)) : ∃ a, i = mk a ∧ bs = a.toByte :: rest := by
  unfold decodeR at h
  cases hf : fetchSel op bs with
  | error e => simp [hf] at h
  | ok p =>
    obtain ⟨a, r⟩ := p
    simp only [hf, Except.ok.injEq, Prod.mk.injEq] at h
    obtain ⟨rfl, rfl⟩ := h
    exact ⟨a, rfl, fetchSel_ok hf⟩

/-- Format RR accepts exactly two selector bytes. -/
theorem decodeRR_ok {mk : Selector → Selector → Instr} {op : Byte} {bs rest : List Byte} {i : Instr}
    (h : decodeRR mk op bs = .ok (i, rest)) : ∃ a b, i = mk a b ∧ bs = a.toByte :: b.toByte :: rest := by
  unfold decodeRR at h
  cases hf : fetchSel op bs with
  | error e => simp [hf] at h
  | ok p =>
    obtain ⟨a, r⟩ := p
    simp only [hf] at h
    obtain ⟨b, hi, hb⟩ := decodeR_ok h
    exact ⟨a, b, hi, by rw [fetchSel_ok hf, hb]⟩

/-- Format RS accepts exactly a selector byte and any byte. -/
theorem decodeRS_ok {mk : Selector → Byte → Instr} {op : Byte} {bs rest : List Byte} {i : Instr}
    (h : decodeRS mk op bs = .ok (i, rest)) : ∃ a k, i = mk a k ∧ bs = a.toByte :: k :: rest := by
  unfold decodeRS at h
  cases hf : fetchSel op bs with
  | error e => simp [hf] at h
  | ok p =>
    obtain ⟨a, r⟩ := p
    simp only [hf] at h
    cases hb : fetchByte op r with
    | error e => simp [hb] at h
    | ok q =>
      obtain ⟨k, r'⟩ := q
      simp only [hb, Except.ok.injEq, Prod.mk.injEq] at h
      obtain ⟨rfl, rfl⟩ := h
      exact ⟨a, k, rfl, by rw [fetchSel_ok hf, fetchByte_ok hb]⟩

/-- Format T accepts exactly any byte. -/
theorem decodeT_ok {mk : Byte → Instr} {op : Byte} {bs rest : List Byte} {i : Instr}
    (h : decodeT mk op bs = .ok (i, rest)) : ∃ t, i = mk t ∧ bs = t :: rest := by
  unfold decodeT at h
  cases hb : fetchByte op bs with
  | error e => simp [hb] at h
  | ok q =>
    obtain ⟨t, r⟩ := q
    simp only [hb, Except.ok.injEq, Prod.mk.injEq] at h
    obtain ⟨rfl, rfl⟩ := h
    exact ⟨t, rfl, fetchByte_ok hb⟩

/-- An immediate of bank `b` read from its bytes fits the bank, and its bytes are those. -/
theorem immediate_of_bytes (b : Bank) {xs : List Byte} (h : xs.length = b.bytes) :
    (BitVec.ofNat 128 (beNat xs)).toNat < 2 ^ b.width ∧
      beBytes b.bytes (BitVec.ofNat 128 (beNat xs)).toNat = xs := by
  have hlt : beNat xs < 2 ^ b.width := by
    have := beNat_lt xs
    rwa [h, Bank.pow_bytes] at this
  have hw : beNat xs < 2 ^ 128 := lt_of_lt_of_le hlt (Nat.pow_le_pow_right (by decide) b.width_le)
  rw [BitVec.toNat_ofNat, Nat.mod_eq_of_lt hw]
  exact ⟨hlt, by rw [← h]; exact beBytes_beNat xs⟩

/-- The bytes of an immediate that fits its bank read back to it. -/
theorem immediate_to_bytes (b : Bank) {imm : BitVec 128} (h : imm.toNat < 2 ^ b.width) :
    BitVec.ofNat 128 (beNat (beBytes b.bytes imm.toNat)) = imm := by
  rw [beNat_beBytes, Bank.pow_bytes, Nat.mod_eq_of_lt h, BitVec.ofNat_toNat, BitVec.setWidth_eq]

/-- Format RI accepts exactly a selector byte and as many bytes as the bank is wide. -/
theorem decodeRI_ok {mk : Selector → BitVec 128 → Instr} {op : Byte} {bs rest : List Byte} {i : Instr}
    (h : decodeRI mk op bs = .ok (i, rest)) :
    ∃ a imm, i = mk a imm ∧ imm.toNat < 2 ^ a.bank.width ∧
      bs = a.toByte :: (beBytes a.bank.bytes imm.toNat ++ rest) := by
  unfold decodeRI at h
  cases hf : fetchSel op bs with
  | error e => simp [hf] at h
  | ok p =>
    obtain ⟨a, r⟩ := p
    simp only [hf] at h
    cases hb : fetch op a.bank.bytes r with
    | error e => simp [hb] at h
    | ok q =>
      obtain ⟨xs, r'⟩ := q
      simp only [hb, Except.ok.injEq, Prod.mk.injEq] at h
      obtain ⟨rfl, rfl⟩ := h
      obtain ⟨hr, hlen⟩ := fetch_ok hb
      obtain ⟨hlt, hbytes⟩ := immediate_of_bytes a.bank hlen
      exact ⟨a, _, rfl, hlt, by rw [fetchSel_ok hf, hr, hbytes]⟩

/-- The number of operand bytes of an instruction is its length less the opcode byte. -/
@[simp] theorem Instr.operandBytes_length (i : Instr) : i.operandBytes.length + 1 = i.length := by
  cases i <;> simp only [Instr.operandBytes, Instr.length, List.length_cons, List.length_nil, beBytes_length]
  omega

theorem Instr.length_pos (i : Instr) : 0 < i.length := by
  have := i.operandBytes_length
  omega

end Sys2Proof
end

