-- ==== Sys2Proof/Laws/Memory.lean ====
section
/-! SUPPORT. The scratch stack's cells: every operation keeps the canonical form, and what a read answers after a
write, a truncation, and a run of bytes written. -/

namespace Sys2Proof.Machine

theorem Memory.wf_nil : Memory.wf [] := List.Pairwise.nil

/-- A write adds its own offset and no other. -/
theorem Memory.mem_offsets_write {m : Memory} {a x : Nat} {v : Byte} (h : x ∈ (m.write a v).map Prod.fst) :
    x = a ∨ x ∈ m.map Prod.fst := by
  induction m with
  | nil => simpa [Memory.write] using h
  | cons c rest ih =>
    obtain ⟨k, w⟩ := c
    unfold Memory.write at h
    split at h
    · simpa using h
    · split at h
      · simp only [List.map_cons, List.mem_cons] at h ⊢
        tauto
      · simp only [List.map_cons, List.mem_cons] at h ⊢
        rcases h with h | h
        · exact .inr (.inl h)
        · rcases ih h with h | h
          · exact .inl h
          · exact .inr (.inr h)

/-- A write keeps the canonical form. -/
theorem Memory.write_wf {m : Memory} (h : Memory.wf m) (a : Nat) (v : Byte) : Memory.wf (m.write a v) := by
  induction m with
  | nil => simp [Memory.write, Memory.wf]
  | cons c rest ih =>
    obtain ⟨k, w⟩ := c
    have hk : ∀ x ∈ rest.map Prod.fst, k < x := (List.pairwise_cons.mp h).1
    have hrest : Memory.wf rest := (List.pairwise_cons.mp h).2
    unfold Memory.write
    split
    · rename_i hlt
      refine List.pairwise_cons.mpr ⟨?_, h⟩
      intro x hx
      rcases List.mem_cons.mp hx with rfl | hx
      · exact hlt
      · exact hlt.trans (hk x hx)
    · split
      · rename_i hka
        refine List.pairwise_cons.mpr ⟨?_, hrest⟩
        intro x hx
        exact hka ▸ hk x hx
      · refine List.pairwise_cons.mpr ⟨?_, ih hrest⟩
        intro x hx
        rcases Memory.mem_offsets_write hx with rfl | hx
        · change k < x; omega
        · exact hk x hx

/-- A truncation keeps the canonical form. -/
theorem Memory.truncate_wf {m : Memory} (h : Memory.wf m) (a : Nat) : Memory.wf (m.truncate a) :=
  h.sublist (List.filter_sublist.map _)

/-- A run of writes keeps the canonical form. -/
theorem Memory.writeBytes_wf {m : Memory} (h : Memory.wf m) (a : Nat) (bs : List Byte) :
    Memory.wf (m.writeBytes a bs) := by
  induction bs generalizing m a with
  | nil => exact h
  | cons b bs ih => exact ih (Memory.write_wf h a b) (a + 1)

@[simp] theorem Memory.read_nil (a : Nat) : Memory.read [] a = none := rfl

theorem Memory.read_cons (k : Nat) (v : Byte) (m : Memory) (a : Nat) :
    Memory.read ((k, v) :: m) a = if k = a then some v else m.read a := rfl

/-- A read after a write to the same offset gives the byte written. -/
@[simp] theorem Memory.read_write_same (m : Memory) (a : Nat) (v : Byte) : (m.write a v).read a = some v := by
  induction m with
  | nil => simp [Memory.write, Memory.read_cons]
  | cons c rest ih =>
    obtain ⟨k, w⟩ := c
    unfold Memory.write
    split
    · simp [Memory.read_cons]
    · split
      · simp [Memory.read_cons]
      · simp [Memory.read_cons, *]

/-- A write leaves every other offset alone. -/
theorem Memory.read_write_other (m : Memory) {a x : Nat} (v : Byte) (h : x ≠ a) : (m.write a v).read x = m.read x := by
  induction m with
  | nil => simp [Memory.write, Memory.read_cons, h.symm]
  | cons c rest ih =>
    obtain ⟨k, w⟩ := c
    unfold Memory.write
    split
    · simp [Memory.read_cons, h.symm]
    · split
      · rename_i hk
        subst hk
        simp [Memory.read_cons, h.symm]
      · simp [Memory.read_cons, ih]

/-- After a truncation at `a`, offsets below `a` read as before and the others hold nothing. -/
theorem Memory.read_truncate (m : Memory) (a x : Nat) :
    (m.truncate a).read x = if x < a then m.read x else none := by
  induction m with
  | nil => simp [Memory.truncate]
  | cons c rest ih =>
    obtain ⟨k, w⟩ := c
    unfold Memory.truncate at ih ⊢
    by_cases hk : k < a
    · rw [List.filter_cons_of_pos (by simpa using hk), Memory.read_cons, Memory.read_cons, ih]
      by_cases hkx : k = x
      · simp [hkx ▸ hk, hkx]
      · simp [hkx]
    · rw [List.filter_cons_of_neg (by simpa using hk), Memory.read_cons, ih]
      by_cases hx : x < a
      · have : k ≠ x := by omega
        simp [hx, this]
      · simp [hx]

/-- After a run of bytes written from `a` on, an offset within the run reads its byte and every other as before. -/
theorem Memory.read_writeBytes (m : Memory) (a : Nat) (bs : List Byte) (x : Nat) :
    (m.writeBytes a bs).read x = if a ≤ x ∧ x < a + bs.length then bs[x - a]? else m.read x := by
  induction bs generalizing m a with
  | nil =>
    have : ¬ (a ≤ x ∧ x < a + 0) := by omega
    simp only [Memory.writeBytes, List.length_nil, this, if_false]
  | cons b bs ih =>
    simp only [Memory.writeBytes, ih, List.length_cons]
    by_cases hx : x = a
    · subst hx
      have h1 : ¬ (x + 1 ≤ x ∧ x < x + 1 + bs.length) := by omega
      have h2 : x ≤ x ∧ x < x + (bs.length + 1) := by omega
      rw [if_neg h1, if_pos h2]
      simp
    · rw [Memory.read_write_other _ _ hx]
      by_cases hin : a + 1 ≤ x ∧ x < a + 1 + bs.length
      · have h2 : a ≤ x ∧ x < a + (bs.length + 1) := by omega
        have h3 : x - a = (x - (a + 1)) + 1 := by omega
        rw [if_pos hin, if_pos h2, h3, List.getElem?_cons_succ]
      · have h2 : ¬ (a ≤ x ∧ x < a + (bs.length + 1)) := by omega
        rw [if_neg hin, if_neg h2]

/-- A run of bytes read has the length asked for, and its byte `k` is the byte at offset `a + k`. -/
theorem Memory.readBytes_eq_some {m : Memory} {a n : Nat} {bs : List Byte} :
    m.readBytes a n = some bs ↔ bs.length = n ∧ ∀ k < n, m.read (a + k) = bs[k]? := by
  induction n generalizing a bs with
  | zero =>
    simp only [Memory.readBytes, Option.some.injEq]
    constructor
    · rintro rfl; simp
    · rintro ⟨h, -⟩; exact (List.length_eq_zero_iff.mp h).symm
  | succ n ih =>
    constructor
    · intro h
      unfold Memory.readBytes at h
      split at h
      · rename_i b bs' hb hbs
        obtain ⟨hlen, hread⟩ := ih.mp hbs
        obtain rfl := Option.some.inj h
        refine ⟨by simp [hlen], ?_⟩
        intro k hk
        cases k with
        | zero => simpa using hb
        | succ k =>
          have := hread k (by omega)
          rw [List.getElem?_cons_succ, ← this]
          congr 1
          omega
      · simp at h
    · rintro ⟨hlen, hread⟩
      cases bs with
      | nil => simp at hlen
      | cons b bs =>
        have h0 : m.read a = some b := by simpa using hread 0 (by omega)
        have hrest : m.readBytes (a + 1) n = some bs := by
          refine ih.mpr ⟨by simpa using hlen, ?_⟩
          intro k hk
          have := hread (k + 1) (by omega)
          rw [List.getElem?_cons_succ] at this
          rw [← this]
          congr 1
          omega
        simp [Memory.readBytes, h0, hrest]

/-- Bytes written are read back. -/
theorem Memory.readBytes_writeBytes (m : Memory) (a : Nat) (bs : List Byte) :
    (m.writeBytes a bs).readBytes a bs.length = some bs := by
  refine Memory.readBytes_eq_some.mpr ⟨rfl, ?_⟩
  intro k hk
  rw [Memory.read_writeBytes, if_pos (by omega)]
  simp

/-- An offset reads as a byte exactly when a cell lists it. -/
theorem Memory.read_isSome_iff (m : Memory) (a : Nat) : (m.read a).isSome = true ↔ a ∈ m.map Prod.fst := by
  induction m with
  | nil => simp
  | cons c rest ih =>
    obtain ⟨k, v⟩ := c
    rw [Memory.read_cons]
    by_cases h : k = a
    · simp [h]
    · simp only [h, if_false, ih, List.map_cons, List.mem_cons]
      constructor
      · exact .inr
      · rintro (h' | h')
        · exact absurd h'.symm h
        · exact h'

/-- Every offset below `n` is live when the cells list exactly the offsets below `n`. -/
theorem Memory.exists_readBytes {m : Memory} {sp : Nat} (h : m.map Prod.fst = List.range sp) {n : Nat} (hn : n ≤ sp) :
    ∃ bs, m.readBytes (sp - n) n = some bs := by
  have live : ∀ n a, a + n ≤ sp → ∃ bs, m.readBytes a n = some bs := by
    intro n
    induction n with
    | zero => exact fun a _ => ⟨[], rfl⟩
    | succ n ih =>
      intro a ha
      obtain ⟨bs, hbs⟩ := ih (a + 1) (by omega)
      have : (m.read a).isSome = true := by
        rw [Memory.read_isSome_iff, h, List.mem_range]
        omega
      obtain ⟨b, hb⟩ := Option.isSome_iff_exists.mp this
      exact ⟨b :: bs, by simp [Memory.readBytes, hb, hbs]⟩
  exact live n (sp - n) (by omega)

/-- A byte written above every listed offset is added at the end. -/
theorem Memory.write_at_end {m : Memory} {a : Nat} (h : ∀ x ∈ m.map Prod.fst, x < a) (v : Byte) :
    m.write a v = m ++ [(a, v)] := by
  induction m with
  | nil => rfl
  | cons c rest ih =>
    obtain ⟨k, w⟩ := c
    have hk : k < a := h k (by simp)
    have hrest : ∀ x ∈ rest.map Prod.fst, x < a := fun x hx => h x (by simp [hx])
    simp only [Memory.write, if_neg (Nat.not_lt.mpr hk.le), if_neg (Nat.ne_of_lt hk), ih hrest, List.cons_append]

/-- Bytes written at the top of a dense memory extend it. -/
theorem Memory.writeBytes_dense {m : Memory} {sp : Nat} (h : m.map Prod.fst = List.range sp) (bs : List Byte) :
    (m.writeBytes sp bs).map Prod.fst = List.range (sp + bs.length) := by
  induction bs generalizing m sp with
  | nil => simpa [Memory.writeBytes] using h
  | cons b bs ih =>
    have hlt : ∀ x ∈ m.map Prod.fst, x < sp := by
      intro x hx
      rw [h] at hx
      simpa using hx
    have hstep : (m.write sp b).map Prod.fst = List.range (sp + 1) := by
      rw [Memory.write_at_end hlt, List.map_append, h, List.range_succ]
      rfl
    have := ih hstep
    rw [Memory.writeBytes, this, List.length_cons]
    congr 1
    omega

/-- A dense memory truncated stays dense. -/
theorem Memory.truncate_dense {m : Memory} {sp a : Nat} (h : m.map Prod.fst = List.range sp) (ha : a ≤ sp) :
    (m.truncate a).map Prod.fst = List.range a := by
  have key : (m.truncate a).map Prod.fst = (m.map Prod.fst).filter fun x => decide (x < a) := by
    rw [List.filter_map]
    rfl
  rw [key, h]
  obtain ⟨d, rfl⟩ := Nat.exists_eq_add_of_le ha
  rw [List.range_add, List.filter_append, List.filter_eq_self.mpr (by simp), List.filter_eq_nil_iff.mpr]
  · simp
  · intro x hx
    obtain ⟨y, -, rfl⟩ := List.mem_map.mp hx
    simp

/-- Dropping the bytes just written gives back the memory below them. -/
theorem Memory.truncate_writeBytes {m : Memory} {sp : Nat} (h : ∀ x ∈ m.map Prod.fst, x < sp) (bs : List Byte) :
    (m.writeBytes sp bs).truncate sp = m := by
  have main : ∀ (m : Memory) (a : Nat), sp ≤ a → (∀ x ∈ m.map Prod.fst, x < a) →
      (m.writeBytes a bs).truncate sp = m.truncate sp := by
    induction bs with
    | nil => intro m a _ _; rfl
    | cons b bs ih =>
      intro m a hle hlt
      have hlt' : ∀ x ∈ (m.write a b).map Prod.fst, x < a + 1 := by
        intro x hx
        rcases Memory.mem_offsets_write hx with rfl | hx
        · omega
        · have := hlt x hx; omega
      rw [Memory.writeBytes, ih (m.write a b) (a + 1) (by omega) hlt', Memory.write_at_end hlt]
      simp [Memory.truncate, Nat.not_lt.mpr hle]
  rw [main m sp le_rfl h]
  refine List.filter_eq_self.mpr ?_
  intro c hc
  simpa using h c.1 (List.mem_map_of_mem hc)

end Sys2Proof.Machine
end

