-- ==== Sys2Proof/Laws/State.lean ====
section
/-! SUPPORT. One lemma per field of State (and of the current context) per update, each true by rfl. -/

namespace Sys2Proof.Machine

variable (s : State)


/-! ### advance -/

@[simp] theorem State.advance_cfg (i : Instr) : (s.advance i).cfg = s.cfg := rfl
@[simp] theorem State.advance_lib (i : Instr) : (s.advance i).lib = s.lib := rfl
@[simp] theorem State.advance_cur (i : Instr) : (s.advance i).cur = s.cur.setPc (s.cur.pc + i.length) := rfl
@[simp] theorem State.advance_frames (i : Instr) : (s.advance i).frames = s.frames := rfl
@[simp] theorem State.advance_mem (i : Instr) : (s.advance i).mem = s.mem := rfl
@[simp] theorem State.advance_sp (i : Instr) : (s.advance i).sp = s.sp := rfl
@[simp] theorem State.advance_status (i : Instr) : (s.advance i).status = s.status := rfl

/-! ### takeFault -/

@[simp] theorem State.takeFault_cfg (k : FaultKind) (o : Option Byte) (d : Option Nat) :
    (s.takeFault k o d).cfg =
      s.cfg := rfl
@[simp] theorem State.takeFault_lib (k : FaultKind) (o : Option Byte) (d : Option Nat) :
    (s.takeFault k o d).lib =
      s.lib := rfl
@[simp] theorem State.takeFault_cur (k : FaultKind) (o : Option Byte) (d : Option Nat) :
    (s.takeFault k o d).cur =
      s.cur := rfl
@[simp] theorem State.takeFault_frames (k : FaultKind) (o : Option Byte) (d : Option Nat) :
    (s.takeFault k o d).frames =
      s.frames := rfl
@[simp] theorem State.takeFault_mem (k : FaultKind) (o : Option Byte) (d : Option Nat) :
    (s.takeFault k o d).mem =
      s.mem := rfl
@[simp] theorem State.takeFault_sp (k : FaultKind) (o : Option Byte) (d : Option Nat) :
    (s.takeFault k o d).sp =
      s.sp := rfl
@[simp] theorem State.takeFault_status (k : FaultKind) (o : Option Byte) (d : Option Nat) :
    (s.takeFault k o d).status =
      .faulted { kind := k, seg := s.cur.seg, pc := s.cur.pc, opcode := o, depth := s.frames.length, detail := d } := rfl

/-! ### writeA -/

@[simp] theorem State.writeA_cfg (a : Selector) (v : BitVec a.bank.width) : (s.writeA a v).cfg = s.cfg := rfl
@[simp] theorem State.writeA_lib (a : Selector) (v : BitVec a.bank.width) : (s.writeA a v).lib = s.lib := rfl
@[simp] theorem State.writeA_cur (a : Selector) (v : BitVec a.bank.width) :
    (s.writeA a v).cur =
      s.cur.setReg a.bank a.index v := rfl
@[simp] theorem State.writeA_frames (a : Selector) (v : BitVec a.bank.width) : (s.writeA a v).frames = s.frames := rfl
@[simp] theorem State.writeA_mem (a : Selector) (v : BitVec a.bank.width) : (s.writeA a v).mem = s.mem := rfl
@[simp] theorem State.writeA_sp (a : Selector) (v : BitVec a.bank.width) : (s.writeA a v).sp = s.sp := rfl
@[simp] theorem State.writeA_status (a : Selector) (v : BitVec a.bank.width) : (s.writeA a v).status = s.status := rfl

/-! ### writeRem -/

@[simp] theorem State.writeRem_cfg (b : Bank) (v : BitVec b.width) : (s.writeRem b v).cfg = s.cfg := rfl
@[simp] theorem State.writeRem_lib (b : Bank) (v : BitVec b.width) : (s.writeRem b v).lib = s.lib := rfl
@[simp] theorem State.writeRem_cur (b : Bank) (v : BitVec b.width) : (s.writeRem b v).cur = s.cur.setRem b v := rfl
@[simp] theorem State.writeRem_frames (b : Bank) (v : BitVec b.width) : (s.writeRem b v).frames = s.frames := rfl
@[simp] theorem State.writeRem_mem (b : Bank) (v : BitVec b.width) : (s.writeRem b v).mem = s.mem := rfl
@[simp] theorem State.writeRem_sp (b : Bank) (v : BitVec b.width) : (s.writeRem b v).sp = s.sp := rfl
@[simp] theorem State.writeRem_status (b : Bank) (v : BitVec b.width) : (s.writeRem b v).status = s.status := rfl

/-! ### writeFlags -/

@[simp] theorem State.writeFlags_cfg (e l g : Bool) : (s.writeFlags e l g).cfg = s.cfg := rfl
@[simp] theorem State.writeFlags_lib (e l g : Bool) : (s.writeFlags e l g).lib = s.lib := rfl
@[simp] theorem State.writeFlags_cur (e l g : Bool) :
    (s.writeFlags e l g).cur =
      s.cur.setFlags e l g := rfl
@[simp] theorem State.writeFlags_frames (e l g : Bool) : (s.writeFlags e l g).frames = s.frames := rfl
@[simp] theorem State.writeFlags_mem (e l g : Bool) : (s.writeFlags e l g).mem = s.mem := rfl
@[simp] theorem State.writeFlags_sp (e l g : Bool) : (s.writeFlags e l g).sp = s.sp := rfl
@[simp] theorem State.writeFlags_status (e l g : Bool) : (s.writeFlags e l g).status = s.status := rfl

/-! ### stackWrite -/

@[simp] theorem State.stackWrite_cfg (bs : List Byte) : (s.stackWrite bs).cfg = s.cfg := rfl
@[simp] theorem State.stackWrite_lib (bs : List Byte) : (s.stackWrite bs).lib = s.lib := rfl
@[simp] theorem State.stackWrite_cur (bs : List Byte) : (s.stackWrite bs).cur = s.cur := rfl
@[simp] theorem State.stackWrite_frames (bs : List Byte) : (s.stackWrite bs).frames = s.frames := rfl
@[simp] theorem State.stackWrite_mem (bs : List Byte) : (s.stackWrite bs).mem = s.mem.writeBytes s.sp bs := rfl
@[simp] theorem State.stackWrite_sp (bs : List Byte) : (s.stackWrite bs).sp = s.sp + bs.length := rfl
@[simp] theorem State.stackWrite_status (bs : List Byte) : (s.stackWrite bs).status = s.status := rfl

/-! ### stackDrop -/

@[simp] theorem State.stackDrop_cfg (n : Nat) : (s.stackDrop n).cfg = s.cfg := rfl
@[simp] theorem State.stackDrop_lib (n : Nat) : (s.stackDrop n).lib = s.lib := rfl
@[simp] theorem State.stackDrop_cur (n : Nat) : (s.stackDrop n).cur = s.cur := rfl
@[simp] theorem State.stackDrop_frames (n : Nat) : (s.stackDrop n).frames = s.frames := rfl
@[simp] theorem State.stackDrop_mem (n : Nat) : (s.stackDrop n).mem = s.mem.truncate (s.sp - n) := rfl
@[simp] theorem State.stackDrop_sp (n : Nat) : (s.stackDrop n).sp = s.sp - n := rfl
@[simp] theorem State.stackDrop_status (n : Nat) : (s.stackDrop n).status = s.status := rfl

/-! ### enterCall -/

@[simp] theorem State.enterCall_cfg (idx : Nat) : (s.enterCall idx).cfg = s.cfg := rfl
@[simp] theorem State.enterCall_lib (idx : Nat) : (s.enterCall idx).lib = s.lib := rfl
@[simp] theorem State.enterCall_cur (idx : Nat) : (s.enterCall idx).cur = Context.fresh idx := rfl
@[simp] theorem State.enterCall_frames (idx : Nat) : (s.enterCall idx).frames = s.cur :: s.frames := rfl
@[simp] theorem State.enterCall_mem (idx : Nat) : (s.enterCall idx).mem = s.mem := rfl
@[simp] theorem State.enterCall_sp (idx : Nat) : (s.enterCall idx).sp = s.sp := rfl
@[simp] theorem State.enterCall_status (idx : Nat) : (s.enterCall idx).status = s.status := rfl

/-! ### withFetchWord -/

@[simp] theorem State.withFetchWord_cfg (nbits w : Nat) : (s.withFetchWord nbits w).cfg = s.cfg := rfl
@[simp] theorem State.withFetchWord_lib (nbits w : Nat) :
    (s.withFetchWord nbits w).lib =
      placeInLibrary s.lib s.cur.seg s.cur.pc (tableWordBytes nbits w) := rfl
@[simp] theorem State.withFetchWord_cur (nbits w : Nat) : (s.withFetchWord nbits w).cur = s.cur := rfl
@[simp] theorem State.withFetchWord_frames (nbits w : Nat) : (s.withFetchWord nbits w).frames = s.frames := rfl
@[simp] theorem State.withFetchWord_mem (nbits w : Nat) : (s.withFetchWord nbits w).mem = s.mem := rfl
@[simp] theorem State.withFetchWord_sp (nbits w : Nat) : (s.withFetchWord nbits w).sp = s.sp := rfl
@[simp] theorem State.withFetchWord_status (nbits w : Nat) : (s.withFetchWord nbits w).status = .running := rfl

/-! ### leaveContext: one lemma per form of HLT -/

theorem State.leaveContext_top (h : s.frames = []) :
    s.leaveContext = { s.advance .hlt with status := .halted } := by
  simp [State.leaveContext, h]

theorem State.leaveContext_nested {caller : Context} {rest : List Context} (h : s.frames = caller :: rest) :
    s.leaveContext = { s with cur := caller, frames := rest } := by
  simp [State.leaveContext, h]

@[simp] theorem State.leaveContext_cfg : s.leaveContext.cfg = s.cfg := by
  unfold State.leaveContext; split <;> rfl

@[simp] theorem State.leaveContext_lib : s.leaveContext.lib = s.lib := by
  unfold State.leaveContext; split <;> rfl

@[simp] theorem State.leaveContext_mem : s.leaveContext.mem = s.mem := by
  unfold State.leaveContext; split <;> rfl

@[simp] theorem State.leaveContext_sp : s.leaveContext.sp = s.sp := by
  unfold State.leaveContext; split <;> rfl

/-! ### The fields of a context -/

variable (c : Context)

@[simp] theorem Context.setReg_seg (b : Bank) (i : Fin 64) (v : BitVec b.width) :
    (c.setReg b i v).seg = c.seg := by cases b <;> rfl
@[simp] theorem Context.setReg_pc (b : Bank) (i : Fin 64) (v : BitVec b.width) :
    (c.setReg b i v).pc = c.pc := by cases b <;> rfl
@[simp] theorem Context.setReg_eq (b : Bank) (i : Fin 64) (v : BitVec b.width) :
    (c.setReg b i v).eq = c.eq := by cases b <;> rfl
@[simp] theorem Context.setReg_lt (b : Bank) (i : Fin 64) (v : BitVec b.width) :
    (c.setReg b i v).lt = c.lt := by cases b <;> rfl
@[simp] theorem Context.setReg_gt (b : Bank) (i : Fin 64) (v : BitVec b.width) :
    (c.setReg b i v).gt = c.gt := by cases b <;> rfl
@[simp] theorem Context.setReg_rem32 (b : Bank) (i : Fin 64) (v : BitVec b.width) :
    (c.setReg b i v).rem32 = c.rem32 := by cases b <;> rfl
@[simp] theorem Context.setReg_rem64 (b : Bank) (i : Fin 64) (v : BitVec b.width) :
    (c.setReg b i v).rem64 = c.rem64 := by cases b <;> rfl
@[simp] theorem Context.setReg_rem128 (b : Bank) (i : Fin 64) (v : BitVec b.width) :
    (c.setReg b i v).rem128 = c.rem128 := by cases b <;> rfl
@[simp] theorem Context.setRem_seg (b : Bank) (v : BitVec b.width) :
    (c.setRem b v).seg = c.seg := by cases b <;> rfl
@[simp] theorem Context.setRem_pc (b : Bank) (v : BitVec b.width) :
    (c.setRem b v).pc = c.pc := by cases b <;> rfl
@[simp] theorem Context.setRem_x32 (b : Bank) (v : BitVec b.width) :
    (c.setRem b v).x32 = c.x32 := by cases b <;> rfl
@[simp] theorem Context.setRem_x64 (b : Bank) (v : BitVec b.width) :
    (c.setRem b v).x64 = c.x64 := by cases b <;> rfl
@[simp] theorem Context.setRem_x128 (b : Bank) (v : BitVec b.width) :
    (c.setRem b v).x128 = c.x128 := by cases b <;> rfl
@[simp] theorem Context.setRem_eq (b : Bank) (v : BitVec b.width) :
    (c.setRem b v).eq = c.eq := by cases b <;> rfl
@[simp] theorem Context.setRem_lt (b : Bank) (v : BitVec b.width) :
    (c.setRem b v).lt = c.lt := by cases b <;> rfl
@[simp] theorem Context.setRem_gt (b : Bank) (v : BitVec b.width) :
    (c.setRem b v).gt = c.gt := by cases b <;> rfl
@[simp] theorem Context.fresh_seg (idx : Nat) : (Context.fresh idx).seg = idx := rfl
@[simp] theorem Context.fresh_pc (idx : Nat) : (Context.fresh idx).pc = 0 := rfl
@[simp] theorem Context.fresh_eq (idx : Nat) : (Context.fresh idx).eq = false := rfl
@[simp] theorem Context.fresh_lt (idx : Nat) : (Context.fresh idx).lt = false := rfl
@[simp] theorem Context.fresh_gt (idx : Nat) : (Context.fresh idx).gt = false := rfl
@[simp] theorem Context.fresh_rem32 (idx : Nat) : (Context.fresh idx).rem32 = 0 := rfl
@[simp] theorem Context.fresh_rem64 (idx : Nat) : (Context.fresh idx).rem64 = 0 := rfl
@[simp] theorem Context.fresh_rem128 (idx : Nat) : (Context.fresh idx).rem128 = 0 := rfl
@[simp] theorem Context.setPc_seg (p : Nat) : (c.setPc p).seg = c.seg := rfl
@[simp] theorem Context.setPc_x32 (p : Nat) : (c.setPc p).x32 = c.x32 := rfl
@[simp] theorem Context.setPc_x64 (p : Nat) : (c.setPc p).x64 = c.x64 := rfl
@[simp] theorem Context.setPc_x128 (p : Nat) : (c.setPc p).x128 = c.x128 := rfl
@[simp] theorem Context.setPc_eq (p : Nat) : (c.setPc p).eq = c.eq := rfl
@[simp] theorem Context.setPc_lt (p : Nat) : (c.setPc p).lt = c.lt := rfl
@[simp] theorem Context.setPc_gt (p : Nat) : (c.setPc p).gt = c.gt := rfl
@[simp] theorem Context.setPc_rem32 (p : Nat) : (c.setPc p).rem32 = c.rem32 := rfl
@[simp] theorem Context.setPc_rem64 (p : Nat) : (c.setPc p).rem64 = c.rem64 := rfl
@[simp] theorem Context.setPc_rem128 (p : Nat) : (c.setPc p).rem128 = c.rem128 := rfl
@[simp] theorem Context.setPc_pc (p : Nat) : (c.setPc p).pc = p := rfl
@[simp] theorem Context.setFlags_seg (e l g : Bool) : (c.setFlags e l g).seg = c.seg := rfl
@[simp] theorem Context.setFlags_pc (e l g : Bool) : (c.setFlags e l g).pc = c.pc := rfl
@[simp] theorem Context.setFlags_x32 (e l g : Bool) : (c.setFlags e l g).x32 = c.x32 := rfl
@[simp] theorem Context.setFlags_x64 (e l g : Bool) : (c.setFlags e l g).x64 = c.x64 := rfl
@[simp] theorem Context.setFlags_x128 (e l g : Bool) : (c.setFlags e l g).x128 = c.x128 := rfl
@[simp] theorem Context.setFlags_rem32 (e l g : Bool) : (c.setFlags e l g).rem32 = c.rem32 := rfl
@[simp] theorem Context.setFlags_rem64 (e l g : Bool) : (c.setFlags e l g).rem64 = c.rem64 := rfl
@[simp] theorem Context.setFlags_rem128 (e l g : Bool) : (c.setFlags e l g).rem128 = c.rem128 := rfl
@[simp] theorem Context.setFlags_eq (e l g : Bool) : (c.setFlags e l g).eq = e := rfl
@[simp] theorem Context.setFlags_lt (e l g : Bool) : (c.setFlags e l g).lt = l := rfl
@[simp] theorem Context.setFlags_gt (e l g : Bool) : (c.setFlags e l g).gt = g := rfl

end Sys2Proof.Machine
end

