-- ==== Sys2Proof/Laws/Registers.lean ====
section
/-! SUPPORT. Registers: a read after a write, for the same and for another register, and that writing flags,
remainders or the pc leaves the registers alone (10_state.md R18, R19). -/

namespace Sys2Proof.Machine

variable (c : Context)

@[simp] theorem Context.reg_setReg_same (b : Bank) (i : Fin 64) (v : BitVec b.width) :
    (c.setReg b i v).reg b i = v := by
  cases b <;> exact Vector.getElem_set_self i.isLt

/-- No register of one bank aliases another (10_state.md R18). -/
theorem Context.reg_setReg_other {b b' : Bank} {i j : Fin 64} (v : BitVec b.width) (h : b' ≠ b ∨ j ≠ i) :
    (c.setReg b i v).reg b' j = c.reg b' j := by
  cases b <;> cases b' <;> try rfl
  all_goals
    have hij : i.val ≠ j.val := fun h' => by
      rcases h with h | h
      · exact h rfl
      · exact h (Fin.ext h'.symm)
    exact Vector.getElem_set_ne i.isLt j.isLt hij

@[simp] theorem Context.rem_setReg (b b' : Bank) (i : Fin 64) (v : BitVec b.width) :
    (c.setReg b i v).rem b' = c.rem b' := by
  cases b <;> cases b' <;> rfl

@[simp] theorem Context.reg_setRem (b b' : Bank) (i : Fin 64) (v : BitVec b.width) :
    (c.setRem b v).reg b' i = c.reg b' i := by
  cases b <;> cases b' <;> rfl

@[simp] theorem Context.rem_setRem_same (b : Bank) (v : BitVec b.width) : (c.setRem b v).rem b = v := by
  cases b <;> rfl

theorem Context.rem_setRem_other {b b' : Bank} (v : BitVec b.width) (h : b' ≠ b) :
    (c.setRem b v).rem b' = c.rem b' := by
  cases b <;> cases b' <;> first | rfl | exact absurd rfl h

/-- Writing back what a register holds changes nothing. -/
theorem Context.setReg_self (b : Bank) (i : Fin 64) : c.setReg b i (c.reg b i) = c := by
  cases b <;> simp [Context.reg, Context.setReg, Vector.get_eq_getElem]

@[simp] theorem Context.reg_setPc (p : Nat) (b : Bank) (i : Fin 64) : (c.setPc p).reg b i = c.reg b i := by
  cases b <;> rfl

@[simp] theorem Context.rem_setPc (p : Nat) (b : Bank) : (c.setPc p).rem b = c.rem b := by
  cases b <;> rfl

@[simp] theorem Context.reg_setFlags (e l g : Bool) (b : Bank) (i : Fin 64) :
    (c.setFlags e l g).reg b i = c.reg b i := by
  cases b <;> rfl

@[simp] theorem Context.rem_setFlags (e l g : Bool) (b : Bank) : (c.setFlags e l g).rem b = c.rem b := by
  cases b <;> rfl

/-- Every register of a fresh context is zero (10_state.md R20). -/
@[simp] theorem Context.reg_fresh (idx : Nat) (b : Bank) (i : Fin 64) : (Context.fresh idx).reg b i = 0 := by
  cases b <;> exact Vector.getElem_replicate i.isLt

/-- Every remainder register of a fresh context is zero (10_state.md R22). -/
@[simp] theorem Context.rem_fresh (idx : Nat) (b : Bank) : (Context.fresh idx).rem b = 0 := by
  cases b <;> rfl

/-- A context is determined by its registers and its other fields. -/
theorem Context.ext_reg {c d : Context} (hseg : c.seg = d.seg) (hpc : c.pc = d.pc)
    (hreg : ∀ b i, c.reg b i = d.reg b i) (heq : c.eq = d.eq) (hlt : c.lt = d.lt) (hgt : c.gt = d.gt)
    (hrem : ∀ b, c.rem b = d.rem b) : c = d := by
  have h32 : c.x32 = d.x32 := Vector.ext fun i hi => hreg .b32 ⟨i, hi⟩
  have h64 : c.x64 = d.x64 := Vector.ext fun i hi => hreg .b64 ⟨i, hi⟩
  have h128 : c.x128 = d.x128 := Vector.ext fun i hi => hreg .b128 ⟨i, hi⟩
  have r32 := hrem .b32
  have r64 := hrem .b64
  have r128 := hrem .b128
  cases c; cases d
  simp_all [Context.rem]

end Sys2Proof.Machine
end

