-- ==== Sys2Proof/Laws/Exec.lean ====
section
/-! SUPPORT. What the shared operations and the instructions can do, said once: the effect of a register write that
completes, the inversion of `exec`, and the inversion of `step`. -/

namespace Sys2Proof.Machine

/-- The status is a fault's. -/
def Status.isFault : Status → Bool
  | .faulted _ => true
  | .running | .halted => false

/-- What `completeA` does: one register and the pc, nothing else. -/
theorem State.completeA_spec (s : State) (i : Instr) (a : Selector) (v : BitVec a.bank.width) :
    ∃ t, s.completeA i a v = .next t ∧ t.cur.reg a.bank a.index = v ∧ s.SameRegistersExcept t a.bank a.index ∧
      s.SameFlags t ∧ s.SameRemainders t ∧ s.SameScratch t ∧ s.SameRun t ∧ t.cur.pc = s.cur.pc + i.length := by
  refine ⟨_, rfl, ?_, ?_, ?_, ?_, ?_, ?_, ?_⟩
  · simp
  · intro b j h
    simpa using Context.reg_setReg_other s.cur v h
  · simp [State.SameFlags]
  · intro b
    simp
  · exact ⟨rfl, fun _ => rfl⟩
  · simp [State.SameRun]
  · simp

/-- A next state of `completeA` is the state with one register and the pc written. -/
theorem State.completeA_next {s t : State} {i : Instr} {a : Selector} {v : BitVec a.bank.width}
    (h : s.completeA i a v = .next t) : t = (s.writeA a v).advance i := by
  simpa [State.completeA] using h.symm

/-! ## The branches of the instructions that check something -/

/-- A limit admits `n` exactly when it is unbounded or at least `n`. -/
theorem withinLimit_iff {l : Option Nat} {n : Nat} : withinLimit l n = true ↔ ∀ m, l = some m → n ≤ m := by
  cases l <;> simp [withinLimit]

theorem execDiv_of_ne {a b : Selector} {s : State} (h : (s.operandB a b).toInt ≠ 0) :
    execDiv a b s = (s.writeRem a.bank (aluRem (s.operandA a) (s.operandB a b))).completeA (.div a b) a
      (aluQuot (s.operandA a) (s.operandB a b)) := if_neg h

theorem execDiv_of_zero {a b : Selector} {s : State} (h : (s.operandB a b).toInt = 0) :
    execDiv a b s = s.raise (.div a b) .divideByZero none := if_pos h

theorem execMod_of_ne {a b : Selector} {s : State} (h : (s.operandB a b).toInt ≠ 0) :
    execMod a b s = s.completeA (.mod a b) a (aluRem (s.operandA a) (s.operandB a b)) := if_neg h

theorem execMod_of_zero {a b : Selector} {s : State} (h : (s.operandB a b).toInt = 0) :
    execMod a b s = s.raise (.mod a b) .divideByZero none := if_pos h

theorem execCal_of_fits {k : Byte} {s : State} (hN : s.callTarget k < s.lib.length) (hfit : s.callFits = true) :
    execCal k s = .next ((s.advance (.cal k)).enterCall (s.callTarget k)) := by
  rw [execCal, if_neg (Nat.not_le.mpr hN), if_pos hfit]

theorem execCal_of_outside {k : Byte} {s : State} (hN : s.lib.length ≤ s.callTarget k) :
    execCal k s = s.raise (.cal k) .callTargetOutOfRange (some (s.callTarget k)) := if_pos hN

theorem execCal_of_deep {k : Byte} {s : State} (hN : s.callTarget k < s.lib.length) (hfit : ¬ s.callFits = true) :
    execCal k s = s.raise (.cal k) .callDepthExceeded none := by
  rw [execCal, if_neg (Nat.not_le.mpr hN), if_neg hfit]

theorem execPsh_of_fits {a : Selector} {s : State} (h : s.pushFits a.bank.bytes = true) :
    execPsh a s = .next ((s.stackWrite (pushBytes a.bank (s.operandA a))).advance (.psh a)) := if_pos h

theorem execPsh_of_full {a : Selector} {s : State} (h : ¬ s.pushFits a.bank.bytes = true) :
    execPsh a s = s.raise (.psh a) .stackOverflow none := if_neg h

theorem execPop_of_read {a : Selector} {s : State} {m : List Byte} (hsp : a.bank.bytes ≤ s.sp)
    (hm : s.stackRead a.bank.bytes = some m) :
    execPop a s = (s.stackDrop a.bank.bytes).completeA (.pop a) a (popValue a.bank m) := by
  rw [execPop, if_neg (Nat.not_lt.mpr hsp), hm]

theorem execPop_of_short {a : Selector} {s : State} (h : s.sp < a.bank.bytes) :
    execPop a s = s.raise (.pop a) .stackUnderflow none := if_pos h

theorem execPop_of_hole {a : Selector} {s : State} (hsp : a.bank.bytes ≤ s.sp)
    (hm : s.stackRead a.bank.bytes = none) : execPop a s = .fault .scratchHole := by
  rw [execPop, if_neg (Nat.not_lt.mpr hsp), hm]

/-! ## What `exec` and `step` can answer -/

/-- The instructions that change the current context alone. -/
def isLocal : Instr → Bool
  | .hlt | .cal _ | .psh _ | .pop _ => false
  | .nop | .lod _ _ | .inc _ | .add _ _ | .sub _ _ | .mul _ _ | .div _ _ | .mod _ _ | .shr _ _ | .shl _ _
  | .and _ _ | .or _ _ | .xor _ _ | .not _ | .cmp _ _ => true

/-- The execution checks an instruction can fail (60_exceptions.md R121, R122 (4)). -/
def canRaise : Instr → FaultKind → Bool
  | .div _ _, .divideByZero | .mod _ _, .divideByZero | .cal _, .callTargetOutOfRange | .cal _, .callDepthExceeded
  | .psh _, .stackOverflow | .pop _, .stackUnderflow => true
  | _, _ => false

/-- What the current context becomes under an instruction that changes it alone. -/
structure LocalEffect (i : Instr) (c d : Context) : Prop where
  seg : d.seg = c.seg
  pc : d.pc = c.pc + i.length
  flags : (∀ a b, i ≠ .cmp a b) → d.eq = c.eq ∧ d.lt = c.lt ∧ d.gt = c.gt
  exclusive : c.flagsExclusive = true → d.flagsExclusive = true
  rems : (∀ a b, i ≠ .div a b) → ∀ b, d.rem b = c.rem b

/-- Everything `exec` can answer: a change of the current context alone, a push, a pop, a call, a halt or return, a
fault of the instruction, or the stop on a hole in the scratch stack. -/
inductive ExecCase (i : Instr) (s : State) : Result → Prop where
  | changed (d : Context) (hi : isLocal i = true) (he : LocalEffect i s.cur d) :
      ExecCase i s (.next { s with cur := d })
  | pushed (a : Selector) (hi : i = .psh a) (hfit : s.pushFits a.bank.bytes = true) :
      ExecCase i s (.next ((s.stackWrite (pushBytes a.bank (s.operandA a))).advance i))
  | popped (a : Selector) (m : List Byte) (hi : i = .pop a) (hsp : a.bank.bytes ≤ s.sp)
      (hm : s.stackRead a.bank.bytes = some m) :
      ExecCase i s (.next (((s.stackDrop a.bank.bytes).writeA a (popValue a.bank m)).advance i))
  | called (tgt : Byte) (hi : i = .cal tgt) (hN : s.callTarget tgt < s.lib.length) (hfit : s.callFits = true) :
      ExecCase i s (.next ((s.advance i).enterCall (s.callTarget tgt)))
  | left (hi : i = .hlt) : ExecCase i s (.next s.leaveContext)
  | raised (k : FaultKind) (d : Option Nat) (hk : canRaise i k = true) : ExecCase i s (s.raise i k d)
  | hole (a : Selector) (hi : i = .pop a) (hsp : a.bank.bytes ≤ s.sp) (hm : s.stackRead a.bank.bytes = none) :
      ExecCase i s (.fault .scratchHole)

theorem Context.flagsExclusive_setReg (c : Context) (b : Bank) (i : Fin 64) (v : BitVec b.width) :
    (c.setReg b i v).flagsExclusive = c.flagsExclusive := by
  simp [Context.flagsExclusive]

/-- A register write and an advance change the current context alone. -/
theorem execCase_completeA {i : Instr} {s : State} {a : Selector} {v : BitVec a.bank.width} (hi : isLocal i = true) :
    ExecCase i s (s.completeA i a v) := by
  refine ExecCase.changed ((s.cur.setReg a.bank a.index v).setPc ((s.cur.setReg a.bank a.index v).pc + i.length)) hi
    ⟨by simp, by simp, ?_, ?_, ?_⟩
  · intro _; simp
  · intro h; simpa [Context.flagsExclusive] using h
  · intro _ b; simp

/-- The flags CMP writes are exclusive (44_compare.md R106). -/
theorem cmp_flags_exclusive {w : Nat} (x y : BitVec w) (c : Context) :
    (c.setFlags (flagEq x y) (flagLt x y) (flagGt x y)).flagsExclusive = true := by
  rcases Int.lt_trichotomy x.toInt y.toInt with h | h | h
  · have h1 : ¬ x.toInt = y.toInt := by omega
    have h2 : ¬ y.toInt < x.toInt := by omega
    simp [Context.flagsExclusive, flagEq, flagLt, flagGt, h1, h2]
  · simp [Context.flagsExclusive, flagEq, flagLt, flagGt, h]
  · have h1 : ¬ x.toInt = y.toInt := by omega
    have h2 : ¬ x.toInt < y.toInt := by omega
    simp [Context.flagsExclusive, flagEq, flagLt, flagGt, h1, h2]

/-- The inversion of `exec`. -/
theorem exec_cases (i : Instr) (s : State) : ExecCase i s (exec i s) := by
  cases i with
  | hlt => exact .left rfl
  | nop => exact .changed _ rfl ⟨rfl, rfl, fun _ => ⟨rfl, rfl, rfl⟩, fun h => h, fun _ b => by simp⟩
  | lod a imm => exact execCase_completeA rfl
  | inc a => exact execCase_completeA rfl
  | add a b => exact execCase_completeA rfl
  | sub a b => exact execCase_completeA rfl
  | mul a b => exact execCase_completeA rfl
  | div a b =>
    simp only [exec, execDiv]
    split
    · exact .raised _ _ rfl
    · refine ExecCase.changed _ rfl ⟨?_, ?_, ?_, ?_, ?_⟩
      · simp
      · simp
      · intro _; simp
      · intro h; simpa [Context.flagsExclusive] using h
      · intro h; exact absurd rfl (h a b)
  | mod a b =>
    simp only [exec, execMod]
    split
    · exact .raised _ _ rfl
    · exact execCase_completeA rfl
  | shr a k => exact execCase_completeA rfl
  | shl a k => exact execCase_completeA rfl
  | and a b => exact execCase_completeA rfl
  | or a b => exact execCase_completeA rfl
  | xor a b => exact execCase_completeA rfl
  | not a => exact execCase_completeA rfl
  | cmp a b =>
    refine .changed _ rfl ⟨rfl, rfl, ?_, ?_, ?_⟩
    · intro h; exact absurd rfl (h a b)
    · intro _; exact cmp_flags_exclusive (s.operandA a) (s.operandB a b) s.cur
    · intro _ r; cases r <;> rfl
  | cal tgt =>
    simp only [exec, execCal]
    split
    · exact .raised _ _ rfl
    · rename_i hN
      split
      · rename_i hfit
        exact .called tgt rfl (by omega) hfit
      · exact .raised _ _ rfl
  | psh a =>
    simp only [exec, execPsh]
    split
    · rename_i hfit; exact .pushed a rfl hfit
    · exact .raised _ _ rfl
  | pop a =>
    simp only [exec, execPop]
    split
    · exact .raised _ _ rfl
    · rename_i hsp
      split
      · rename_i m hm; exact .popped a m rfl (by omega) hm
      · rename_i hm; exact .hole a rfl (by omega) hm

/-- Everything `step` can answer with a next state: an instruction run, or a fault of the decode procedure. -/
theorem step_cases {s t : State} (h : step s = .next t) :
    s.status = .running ∧ s.cur.seg < s.lib.length ∧
      ((∃ i rest, s.decodeHere = .ok (i, rest) ∧ exec i s = .next t) ∨
        (∃ e, s.decodeHere = .error e ∧ s.raiseDecode e = .next t)) := by
  unfold step at h
  split at h
  · cases h
  · cases h
  · rename_i hrun
    split at h
    · rename_i hseg
      refine ⟨hrun, hseg, ?_⟩
      split at h
      · rename_i i rest hd; exact .inl ⟨i, rest, hd, h⟩
      · rename_i e hd; exact .inr ⟨e, hd, h⟩
    · cases h

/-- A running step whose bytes decode runs the instruction (40_execution.md R77). -/
theorem step_of_decode {s : State} {i : Instr} {rest : List Byte} (hrun : s.status = .running)
    (hseg : s.cur.seg < s.lib.length) (hd : s.decodeHere = .ok (i, rest)) : step s = exec i s := by
  simp [step, hrun, hseg, hd]

/-- A running step whose bytes do not decode raises the decoder's fault (40_execution.md R77). -/
theorem step_of_decode_error {s : State} {e : DecodeError} (hrun : s.status = .running)
    (hseg : s.cur.seg < s.lib.length) (hd : s.decodeHere = .error e) : step s = s.raiseDecode e := by
  simp [step, hrun, hseg, hd]

/-- A fault of the decode procedure changes the status alone. -/
theorem raiseDecode_next {s t : State} {e : DecodeError} (h : s.raiseDecode e = .next t) :
    ∃ k o d, t = s.takeFault k o d := by
  cases e <;> exact ⟨_, _, _, by simpa [State.raiseDecode] using h.symm⟩

theorem raise_next {s t : State} {i : Instr} {k : FaultKind} {d : Option Nat} (h : s.raise i k d = .next t) :
    t = s.takeFault k (some (i.opcode s.cfg.opcodeMap)) d := by
  simpa [State.raise] using h.symm

end Sys2Proof.Machine
end

