-- ==== Sys2Proof/Laws/PerInstr.lean ====
section
/-! SUPPORT. Facts about each instruction as syntax, one lemma per constructor. -/

namespace Sys2Proof.Laws.EncodedLength

/-- The encoding of an instruction, under any opcode map, has the instruction's length (30_encoding.md R65). -/
def Statement (i : Instr) : Prop := ∀ om, (encode om i).length = i.length

theorem of_operands (i : Instr) : Statement i := fun om => by
  rw [encode, List.length_cons, Instr.operandBytes_length]

theorem hlt : Statement .hlt := of_operands _
theorem nop : Statement .nop := of_operands _
theorem lod (a : Selector) (imm : BitVec 128) : Statement (.lod a imm) := of_operands _
theorem inc (a : Selector) : Statement (.inc a) := of_operands _
theorem add (a b : Selector) : Statement (.add a b) := of_operands _
theorem sub (a b : Selector) : Statement (.sub a b) := of_operands _
theorem mul (a b : Selector) : Statement (.mul a b) := of_operands _
theorem div (a b : Selector) : Statement (.div a b) := of_operands _
theorem mod (a b : Selector) : Statement (.mod a b) := of_operands _
theorem shr (a : Selector) (shamt : Byte) : Statement (.shr a shamt) := of_operands _
theorem shl (a : Selector) (shamt : Byte) : Statement (.shl a shamt) := of_operands _
theorem and (a b : Selector) : Statement (.and a b) := of_operands _
theorem or (a b : Selector) : Statement (.or a b) := of_operands _
theorem xor (a b : Selector) : Statement (.xor a b) := of_operands _
theorem not (a : Selector) : Statement (.not a) := of_operands _
theorem cmp (a b : Selector) : Statement (.cmp a b) := of_operands _
theorem cal (tgt : Byte) : Statement (.cal tgt) := of_operands _
theorem psh (a : Selector) : Statement (.psh a) := of_operands _
theorem pop (a : Selector) : Statement (.pop a) := of_operands _

end Sys2Proof.Laws.EncodedLength
end

