-- ==== Sys2Proof/Laws/Run.lean ====
section
/-! SUPPORT. Runs of several steps, and the decoder's place in the segment. -/

namespace Sys2Proof.Machine

/-- A first step, then the rest of the run, for any machine. -/
theorem run_succ_of_next_of (M : Host.Core) {s t : M.State} (h : M.step s = .next t) (k : Nat) :
    M.run (k + 1) s = M.run k t := by
  rw [Host.Core.run, h]

/-- A run of one more step starts with a step, for any machine. -/
theorem run_succ_first_of (M : Host.Core) {s u : M.State} {k : Nat} (h : M.run (k + 1) s = .next u) :
    ∃ t, M.step s = .next t ∧ M.run k t = .next u := by
  rw [Host.Core.run] at h
  split at h
  · rename_i t ht; exact ⟨t, ht, h⟩
  · cases h
  · cases h

/-- A first step, then the rest of the run. -/
theorem run_succ_of_next {s t : State} (h : step s = .next t) (k : Nat) :
    Host.Core.run Sys2Proof.core (k + 1) s = Host.Core.run Sys2Proof.core k t :=
  run_succ_of_next_of Sys2Proof.core h k

/-- A run of one more step starts with a step. -/
theorem run_succ_first {s u : State} {k : Nat} (h : Host.Core.run Sys2Proof.core (k + 1) s = .next u) :
    ∃ t, step s = .next t ∧ Host.Core.run Sys2Proof.core k t = .next u :=
  run_succ_first_of Sys2Proof.core h

/-- A run of one more step ends with a step. -/
theorem run_succ_last {s u : State} {k : Nat} (h : Host.Core.run Sys2Proof.core (k + 1) s = .next u) :
    ∃ t, Host.Core.run Sys2Proof.core k s = .next t ∧ step t = .next u := by
  induction k generalizing s with
  | zero =>
    obtain ⟨t, ht, hu⟩ := run_succ_first h
    cases hu
    exact ⟨s, rfl, ht⟩
  | succ k ih =>
    obtain ⟨t, ht, hu⟩ := run_succ_first h
    obtain ⟨v, hv, hvu⟩ := ih hu
    exact ⟨v, (run_succ_of_next ht k).trans hv, hvu⟩

/-- The byte at the pc is the first of the bytes the decoder sees. -/
theorem ifetch_eq_head (s : State) : s.ifetch s.cur.seg s.cur.pc = s.stream.head? := by
  simp [State.ifetch, State.stream, List.head?_drop]

end Sys2Proof.Machine
end

