-- ==== Sys2Proof/Tests/Slice0.lean ====
section
/-! SUPPORT. Tests of one step or one operation each, with results taken from the spec's own vectors
(95_test_vectors.md) or its rules, and one witness for each statement's hypotheses. -/

namespace Sys2Proof.Tests

open Sys2Proof Sys2Proof.Machine

/-! ## Helpers -/

/-- A launched state over one segment. -/
def prog (bytes : List Byte) : State := State.launched defaultConfig [bytes]

/-- A state with one register set. -/
def setR (s : State) (b : Bank) (i : Fin 64) (v : BitVec b.width) : State := { s with cur := s.cur.setReg b i v }

/-- A state whose scratch stack holds the bytes. -/
def setS (s : State) (bytes : List Byte) : State := s.stackWrite bytes

/-- Two 32-bit registers set, r0 and r1. -/
def rr (x y : BitVec 32) : State := setR (setR State.reset .b32 0 x) .b32 1 y

/-- A register of a next state. -/
def regOf (b : Bank) (i : Fin 64) : Result → Option (BitVec b.width)
  | .next s => some (s.cur.reg b i)
  | .fault _ => none
  | .refused _ => none

/-- The status of a next state. -/
def statusOf : Result → Option Status
  | .next s => some s.status
  | .fault _ => none
  | .refused _ => none

/-- The fault code and detail of a next state. -/
def faultOf : Result → Option (Nat × Option Nat)
  | .next s =>
    match s.status with
    | .faulted r => some (r.kind.code, r.detail)
    | .running => none
    | .halted => none
  | .fault _ => none
  | .refused _ => none

/-- The flags (eq, lt, gt) of a next state. -/
def flagsOf : Result → Option (Bool × Bool × Bool)
  | .next s => some (s.cur.eq, s.cur.lt, s.cur.gt)
  | .fault _ => none
  | .refused _ => none

/-- The remainder register of a bank of a next state. -/
def remOf (b : Bank) : Result → Option (BitVec b.width)
  | .next s => some (s.cur.rem b)
  | .fault _ => none
  | .refused _ => none

/-- The scratch stack of a next state: its bytes and SP. -/
def stackOf : Result → Option (List Byte × Nat)
  | .next s => some (s.mem.map Prod.snd, s.sp)
  | .fault _ => none
  | .refused _ => none

/-- Segment, pc and depth of a next state. -/
def placeOf : Result → Option (Nat × Nat × Nat)
  | .next s => some (s.cur.seg, s.cur.pc, s.frames.length)
  | .fault _ => none
  | .refused _ => none

/-! ## WellFormed (30_encoding.md R61): the one check, an immediate wider than its bank -/

theorem test_wf_refuses_wide_immediate : (Instr.lod ⟨.b32, 0⟩ 0x100000000).wellFormed = false := by decide

theorem test_wf_accepts_widest_immediate : (Instr.lod ⟨.b32, 0⟩ 0xFFFFFFFF).wellFormed = true := by decide

/-! ## Decoding words written out from the formats (30_encoding.md R59, R64) -/

theorem test_decode_hlt : decode OpcodeMap.table [0x00] = .ok (.hlt, []) := by decide
theorem test_decode_nop : decode OpcodeMap.table [0x01, 0x00] = .ok (.nop, [0x00]) := by decide
theorem test_decode_lod_r : decode OpcodeMap.table [0x02, 0x02, 0x11, 0x22, 0x33, 0x44] =
    .ok (.lod ⟨.b32, 2⟩ 0x11223344, []) := by decide
theorem test_decode_lod_d : decode OpcodeMap.table [0x02, 0x43, 0xFF, 0xFF, 0xFF, 0xFF, 0xFF, 0xFF, 0xFF, 0xFE] =
    .ok (.lod ⟨.b64, 3⟩ 0xFFFFFFFFFFFFFFFE, []) := by decide
theorem test_decode_inc : decode OpcodeMap.table [0x03, 0x40] = .ok (.inc ⟨.b64, 0⟩, []) := by decide
theorem test_decode_add : decode OpcodeMap.table [0x04, 0x00, 0x41] = .ok (.add ⟨.b32, 0⟩ ⟨.b64, 1⟩, []) := by decide
theorem test_decode_sub : decode OpcodeMap.table [0x05, 0x3F, 0x00] = .ok (.sub ⟨.b32, 63⟩ ⟨.b32, 0⟩, []) := by decide
theorem test_decode_mul : decode OpcodeMap.table [0x06, 0x00, 0x01] = .ok (.mul ⟨.b32, 0⟩ ⟨.b32, 1⟩, []) := by decide
theorem test_decode_div : decode OpcodeMap.table [0x07, 0x00, 0x01] = .ok (.div ⟨.b32, 0⟩ ⟨.b32, 1⟩, []) := by decide
theorem test_decode_mod : decode OpcodeMap.table [0x08, 0x01, 0x02] = .ok (.mod ⟨.b32, 1⟩ ⟨.b32, 2⟩, []) := by decide
theorem test_decode_shr : decode OpcodeMap.table [0x09, 0x40, 0x3F] = .ok (.shr ⟨.b64, 0⟩ 63, []) := by decide
theorem test_decode_shl : decode OpcodeMap.table [0x0A, 0x81, 0x7F] = .ok (.shl ⟨.b128, 1⟩ 127, []) := by decide
theorem test_decode_and : decode OpcodeMap.table [0x0B, 0x00, 0x01] = .ok (.and ⟨.b32, 0⟩ ⟨.b32, 1⟩, []) := by decide
theorem test_decode_or : decode OpcodeMap.table [0x0C, 0x00, 0x01] = .ok (.or ⟨.b32, 0⟩ ⟨.b32, 1⟩, []) := by decide
theorem test_decode_xor : decode OpcodeMap.table [0x0D, 0x00, 0x01] = .ok (.xor ⟨.b32, 0⟩ ⟨.b32, 1⟩, []) := by decide
theorem test_decode_not : decode OpcodeMap.table [0x0E, 0x81] = .ok (.not ⟨.b128, 1⟩, []) := by decide
theorem test_decode_cmp : decode OpcodeMap.table [0x0F, 0x81, 0x80] = .ok (.cmp ⟨.b128, 1⟩ ⟨.b128, 0⟩, []) := by decide
theorem test_decode_cal : decode OpcodeMap.table [0x10, 0xFF] = .ok (.cal 255, []) := by decide
theorem test_decode_psh : decode OpcodeMap.table [0x11, 0xBF] = .ok (.psh ⟨.b128, 63⟩, []) := by decide
theorem test_decode_pop : decode OpcodeMap.table [0x12, 0x7F] = .ok (.pop ⟨.b64, 63⟩, []) := by decide

theorem test_decode_empty : decode OpcodeMap.table [] = .error (.streamOverrun none) := by decide
theorem test_decode_unknown : decode OpcodeMap.table [0x13] = .error (.unknownOpcode 0x13) := by decide
theorem test_decode_a_before_b : decode OpcodeMap.table [0x04, 0xC0] = .error (.invalidSelector 0x04 0xC0) := by decide
theorem test_decode_b_checked : decode OpcodeMap.table [0x04, 0x00, 0xC1, 0x00] = .error (.invalidSelector 0x04 0xC1) := by
  decide
theorem test_decode_lod_selector_first : decode OpcodeMap.table [0x02, 0xC0] = .error (.invalidSelector 0x02 0xC0) := by
  decide
theorem test_decode_lod_short : decode OpcodeMap.table [0x02, 0x40, 0, 0, 0, 0, 0] =
    .error (.streamOverrun (some 0x02)) := by decide

theorem test_table_word : decodeTableWord 24 0x410004 = some (.add ⟨.b32, 0⟩ ⟨.b64, 1⟩) := by decide
theorem test_table_word_short : decodeTableWord 8 0x02 = some (.lod ⟨.b32, 0⟩ 0) := by decide

/-! ## Instructions, one step each (95_test_vectors.md sections 1 to 2.9) -/

theorem test_hlt_top : statusOf (step (prog [0x00])) = some .halted ∧ placeOf (step (prog [0x00])) = some (0, 1, 0) := by
  decide
theorem test_nop : placeOf (step (prog [0x01, 0x00])) = some (0, 1, 0) := by decide
theorem test_lod_minus_one : regOf .b32 7 (step (prog [0x02, 0x07, 0xFF, 0xFF, 0xFF, 0xFF])) = some 0xFFFFFFFF := by
  decide
theorem test_lod_big_endian :
    regOf .b64 0 (step (prog [0x02, 0x40, 1, 2, 3, 4, 5, 6, 7, 8])) = some 0x0102030405060708 := by decide
theorem test_inc_wraps : regOf .b32 0 (exec (.inc ⟨.b32, 0⟩) (rr 0x7FFFFFFF 0)) = some 0x80000000 := by decide
theorem test_add_wraps : regOf .b32 0 (exec (.add ⟨.b32, 0⟩ ⟨.b32, 1⟩) (rr 0x7FFFFFFF 1)) = some 0x80000000 := by decide
theorem test_add_reads_b_in_bank_of_a :
    regOf .b32 0 (exec (.add ⟨.b32, 0⟩ ⟨.b64, 1⟩) (setR (rr 1 2) .b64 1 100)) = some 3 := by decide
theorem test_sub_order : regOf .b32 0 (exec (.sub ⟨.b32, 0⟩ ⟨.b32, 1⟩) (rr 0x80000000 1)) = some 0x7FFFFFFF := by decide
theorem test_mul_signed : regOf .b32 0 (exec (.mul ⟨.b32, 0⟩ ⟨.b32, 1⟩) (rr 0xFFFFFFFD 7)) = some 0xFFFFFFEB := by decide
theorem test_div_truncates :
    regOf .b32 0 (exec (.div ⟨.b32, 0⟩ ⟨.b32, 1⟩) (rr 0xFFFFFFF9 2)) = some 0xFFFFFFFD ∧
      remOf .b32 (exec (.div ⟨.b32, 0⟩ ⟨.b32, 1⟩) (rr 0xFFFFFFF9 2)) = some 0xFFFFFFFF := by decide
theorem test_div_min_by_minus_one :
    regOf .b32 0 (exec (.div ⟨.b32, 0⟩ ⟨.b32, 1⟩) (rr 0x80000000 0xFFFFFFFF)) = some 0x80000000 ∧
      remOf .b32 (exec (.div ⟨.b32, 0⟩ ⟨.b32, 1⟩) (rr 0x80000000 0xFFFFFFFF)) = some 0 := by decide
theorem test_mod_keeps_remainder :
    regOf .b32 0 (exec (.mod ⟨.b32, 0⟩ ⟨.b32, 1⟩) (rr 7 0xFFFFFFFE)) = some 1 ∧
      remOf .b32 (exec (.mod ⟨.b32, 0⟩ ⟨.b32, 1⟩) (rr 7 0xFFFFFFFE)) = some 0 := by decide
theorem test_mod_by_zero : faultOf (exec (.mod ⟨.b32, 0⟩ ⟨.b32, 1⟩) (rr 7 0)) = some (3, none) := by decide
theorem test_shr_sign_fill : regOf .b32 0 (exec (.shr ⟨.b32, 0⟩ 4) (rr 0x80000000 0)) = some 0xF8000000 := by decide
theorem test_shr_masks : regOf .b32 0 (exec (.shr ⟨.b32, 0⟩ 33) (rr 0x40000000 0)) = some 0x20000000 := by decide
theorem test_shl_drops : regOf .b32 0 (exec (.shl ⟨.b32, 0⟩ 4) (rr 0xFFFFFFFF 0)) = some 0xFFFFFFF0 := by decide
theorem test_shl_masks : regOf .b32 0 (exec (.shl ⟨.b32, 0⟩ 255) (rr 3 0)) = some 0x80000000 := by decide
theorem test_and : regOf .b32 0 (exec (.and ⟨.b32, 0⟩ ⟨.b32, 1⟩) (rr 0xF0F0F0F0 0x0FF00FF0)) = some 0x00F000F0 := by
  decide
theorem test_or : regOf .b32 0 (exec (.or ⟨.b32, 0⟩ ⟨.b32, 1⟩) (rr 0xF0F0F0F0 0x0FF00FF0)) = some 0xFFF0FFF0 := by decide
theorem test_xor : regOf .b32 0 (exec (.xor ⟨.b32, 0⟩ ⟨.b32, 1⟩) (rr 0xF0F0F0F0 0x0FF00FF0)) = some 0xFF00FF00 := by
  decide
theorem test_not : regOf .b64 0 (exec (.not ⟨.b64, 0⟩) (setR State.reset .b64 0 0x0123456789ABCDEF)) =
    some 0xFEDCBA9876543210 := by decide
theorem test_cmp_signed : flagsOf (exec (.cmp ⟨.b32, 0⟩ ⟨.b32, 1⟩) (rr 0xFFFFFFFF 1)) = some (false, true, false) := by
  decide
theorem test_cmp_clears :
    flagsOf (exec (.cmp ⟨.b32, 0⟩ ⟨.b32, 1⟩) ((rr 7 7).writeFlags false true false)) = some (true, false, false) := by
  decide

/-- Three segments, as in 95_test_vectors.md section 2.8. -/
def three (seg depth : Nat) (limit : Option Nat) : State :=
  { State.launched { defaultConfig with maxCallDepth := limit } [[0x10, 0x00, 0x00], [], []] with
    cur := Context.fresh seg, frames := List.replicate depth (Context.fresh 0) }

theorem test_cal_calls : placeOf (exec (.cal 1) (three 0 0 none)) = some (2, 0, 1) := by decide
theorem test_cal_out_of_range : faultOf (exec (.cal 255) (three 0 0 none)) = some (5, some 256) := by decide
theorem test_cal_too_deep : faultOf (exec (.cal 0) (three 1 1 (some 1))) = some (7, none) := by decide
theorem test_hlt_returns :
    placeOf (exec .hlt { three 1 0 none with frames := [(Context.fresh 0).setPc 2] }) = some (0, 2, 0) := by decide
theorem test_psh_little_endian :
    stackOf (exec (.psh ⟨.b64, 0⟩) (setR State.reset .b64 0 0x0102030405060708)) =
      some ([0x08, 0x07, 0x06, 0x05, 0x04, 0x03, 0x02, 0x01], 8) := by decide
theorem test_psh_overflow :
    faultOf (exec (.psh ⟨.b64, 0⟩) (State.launched { defaultConfig with stackCap := some 4 } [[]])) = some (8, none) := by
  decide
theorem test_pop_replaces :
    regOf .b32 0 (exec (.pop ⟨.b32, 0⟩) (setS (rr 0x12345678 0) [0x00, 0x00, 0x00, 0x80])) = some 0x80000000 := by decide
theorem test_pop_underflow : faultOf (exec (.pop ⟨.b32, 0⟩) (setS State.reset [0xAA, 0xBB])) = some (4, none) := by decide
theorem test_fault_record :
    statusOf (step { prog [0x01, 0x08, 0x01, 0x02] with cur := (Context.fresh 0).setPc 1 }) =
      some (.faulted ⟨.divideByZero, 0, 1, some 0x08, 0, none⟩) := by decide
theorem test_unknown_opcode_record :
    statusOf (step (prog [0x13])) = some (.faulted ⟨.unknownOpcode, 0, 0, some 0x13, 0, some 0x13⟩) := by decide

/-! ## Witnesses: the hypotheses of each statement can be met together -/

/-- A library of two segments, the first calling the second (95_test_vectors.md section 1.4). -/
def caller : State := State.launched defaultConfig [[0x10, 0x00, 0x00], [0x02, 0x00, 0, 0, 0, 0xFF, 0x00]]

/-- A state with `STACK_CAP` 8 and four live bytes. -/
def capped : State :=
  setS (State.launched { defaultConfig with stackCap := some 8 } [[]]) [0x01, 0x02, 0x03, 0x04]

/-- `capped` meets the invariants. -/
theorem capped_inv : capped.Inv :=
  ⟨by decide, by decide, by decide, by decide, by decide, by decide, by decide, by decide⟩

theorem test_witness_EncodedInstructionDecodesBack :
    OpcodeMap.table.Injective ∧ (Instr.lod ⟨.b128, 63⟩ (BitVec.allOnes 128)).wellFormed = true := by decide

theorem test_witness_DecodedBytesAreTheEncoding :
    decode OpcodeMap.table [0x02, 0x3F, 0xFF, 0xFF, 0xFF, 0xFF, 0xAA] =
      .ok (.lod ⟨.b32, 63⟩ 0xFFFFFFFF, [0xAA]) := by decide

theorem test_witness_TruncatedEncodingOverruns :
    OpcodeMap.table.Injective ∧ (Instr.lod ⟨.b128, 0⟩ 1).wellFormed = true ∧ 17 < (Instr.lod ⟨.b128, 0⟩ 1).length ∧
      0 < Instr.hlt.length := by decide

theorem test_witness_IllegalEncodingsFaultByName :
    (∀ m, OpcodeMap.table.byteOf m ≠ 0x13) ∧ 0xC0 ≤ (0xC0 : Byte).toNat ∧ OpcodeMap.table.Injective ∧
      [(0 : Byte), 0, 0, 0].length = Bank.b32.bytes :=
  ⟨fun m => by cases m <;> decide, by decide, by decide, by decide⟩

theorem test_witness_StepRunsTheDecodedInstruction :
    (prog [0x04, 0x00, 0x41]).status = .running ∧ 0 < (prog [0x04, 0x00, 0x41]).lib.length ∧
      (prog [0x04, 0x00, 0x41]).cfg.opcodeMap.Injective ∧ (Instr.add ⟨.b32, 0⟩ ⟨.b64, 1⟩).wellFormed = true ∧
      ((prog [0x04, 0x00, 0x41]).segment 0).drop 0 =
        encode OpcodeMap.table (Instr.add ⟨.b32, 0⟩ ⟨.b64, 1⟩) ++ [] := by decide

theorem test_witness_StepRaisesTheDecodersFault :
    (prog []).status = .running ∧ 0 < (prog []).lib.length ∧ (prog []).decodeHere = .error (.streamOverrun none) ∧
      (prog [0xFF]).decodeHere = .error (.unknownOpcode 0xFF) ∧
      (prog [0x03, 0xC0]).decodeHere = .error (.invalidSelector 0x03 0xC0) := by decide

/-- A fault record for the witnesses. -/
def someRecord : FaultRecord := ⟨.streamOverrun, 0, 0, none, 0, none⟩

theorem test_witness_EndedRunHasNoStep :
    ({ prog [] with status := .halted } : State).status = .halted ∧
      ({ prog [] with status := .faulted someRecord } : State).status = .faulted someRecord ∧
      (∃ t, step (prog [0x01]) = .next t) := ⟨rfl, rfl, _, rfl⟩

theorem test_witness_FaultChangesTheStatusAlone : ∃ t r, step (prog []) = .next t ∧ t.status = .faulted r :=
  ⟨_, _, rfl, rfl⟩

theorem test_witness_InstructionsRaiseOnlyTheirFaults :
    (∃ t r, exec (.div ⟨.b32, 0⟩ ⟨.b32, 1⟩) (rr 7 0) = .next t ∧ t.status = .faulted r) ∧
      (∃ t r, exec (.mod ⟨.b32, 0⟩ ⟨.b32, 1⟩) (rr 7 0) = .next t ∧ t.status = .faulted r) ∧
      (∃ t r, exec (.cal 0) (prog []) = .next t ∧ t.status = .faulted r) ∧
      (∃ t r, exec (.psh ⟨.b64, 0⟩) capped = .next t ∧ t.status = .faulted r) ∧
      ∃ t r, exec (.pop ⟨.b64, 0⟩) capped = .next t ∧ t.status = .faulted r :=
  ⟨⟨_, _, rfl, rfl⟩, ⟨_, _, rfl, rfl⟩, ⟨_, _, rfl, rfl⟩, ⟨_, _, rfl, rfl⟩, ⟨_, _, rfl, rfl⟩⟩

theorem test_witness_NextPcComesFromTheDecoder :
    (∃ t, exec .nop (prog [0x01]) = .next t ∧ ∀ r, t.status ≠ .faulted r) ∧
      (∃ t, exec (.cal 0) caller = .next t ∧ ∀ r, t.status ≠ .faulted r) ∧
      ∃ t, exec .hlt { caller with frames := [Context.fresh 0] } = .next t ∧ ∀ r, t.status ≠ .faulted r :=
  ⟨⟨_, rfl, nofun⟩, ⟨_, rfl, nofun⟩, ⟨_, rfl, nofun⟩⟩

theorem test_witness_LaunchIsRefusedOutsideItsPreconditions :
    launch defaultConfig [[0x00]] [] = .next (prog [0x00]) := rfl

theorem test_witness_LaunchedStateMeetsTheInvariant : launch defaultConfig [[]] [] = .next State.reset := rfl

theorem test_witness_StepKeepsTheInvariant : State.reset.Inv ∧ ∃ t, step State.reset = .next t :=
  ⟨⟨by decide, by decide, by decide, by decide, by decide, by decide, by decide, by decide⟩, _, rfl⟩

theorem test_witness_StepKeepsTheScratchCanonical : Memory.wf capped.mem ∧ ∃ t, step capped = .next t :=
  ⟨by decide, _, rfl⟩

theorem test_witness_RunningMachineAlwaysSteps : capped.Inv ∧ capped.status = .running := ⟨capped_inv, rfl⟩

theorem test_witness_EveryRunEnds : capped.Inv := capped_inv

theorem test_witness_LibraryAndConfigurationNeverChange : ∃ t, step caller = .next t := ⟨_, rfl⟩

theorem test_witness_OnlyPushAndPopTouchTheScratchStack :
    (∃ t, exec (.cal 0) caller = .next t) ∧ (∀ a, Instr.cal 0 ≠ .psh a) ∧ ∀ a, Instr.cal 0 ≠ .pop a :=
  ⟨⟨_, rfl⟩, nofun, nofun⟩

theorem test_witness_OnlyCmpWritesFlagsAndOnlyDivRemainders :
    (∃ t, exec (.div ⟨.b32, 0⟩ ⟨.b32, 1⟩) (rr 7 2) = .next t) ∧ Instr.div ⟨.b32, 0⟩ ⟨.b32, 1⟩ ≠ .hlt ∧
      (∀ k, Instr.div ⟨.b32, 0⟩ ⟨.b32, 1⟩ ≠ .cal k) ∧ (∀ a b, Instr.div ⟨.b32, 0⟩ ⟨.b32, 1⟩ ≠ .cmp a b) ∧
      Bank.b64 ≠ Bank.b32 := ⟨⟨_, rfl⟩, nofun, nofun, nofun, nofun⟩

theorem test_witness_OnlyCmpWritesFlagsAndOnlyDivRemainders_mod :
    (∃ t, exec (.mod ⟨.b32, 0⟩ ⟨.b32, 1⟩) (rr 7 2) = .next t) ∧ Instr.mod ⟨.b32, 0⟩ ⟨.b32, 1⟩ ≠ .hlt ∧
      (∀ k, Instr.mod ⟨.b32, 0⟩ ⟨.b32, 1⟩ ≠ .cal k) ∧ ∀ a b, Instr.mod ⟨.b32, 0⟩ ⟨.b32, 1⟩ ≠ .div a b :=
  ⟨⟨_, rfl⟩, nofun, nofun, nofun⟩

theorem test_witness_HltHaltsOrReturns :
    (prog [0x00]).frames = [] ∧ ({ caller with frames := [Context.fresh 0] } : State).frames = Context.fresh 0 :: [] :=
  ⟨rfl, rfl⟩

theorem test_witness_CalCallsAFreshContextOrFaults :
    ((three 0 0 (some 1)).cur.seg + 1 + (1 : Byte).toNat < (three 0 0 (some 1)).lib.length ∧
      (three 0 0 (some 1)).frames.length + 1 ≤ 1) ∧
    (three 0 0 none).lib.length ≤ (three 0 0 none).cur.seg + 1 + (2 : Byte).toNat ∧
    ((three 1 1 (some 1)).cur.seg + 1 + (0 : Byte).toNat < (three 1 1 (some 1)).lib.length ∧
      (three 1 1 (some 1)).cfg.maxCallDepth = some 1 ∧ 1 < (three 1 1 (some 1)).frames.length + 1) := by decide

theorem test_witness_FramesAreAStack : ∃ t, step caller = .next t ∧ t.frames.length = 1 := ⟨_, rfl, rfl⟩

/-- The state after the call, and the state after the callee's LOD and HLT. -/
theorem test_witness_ReturnRestoresTheCaller :
    ∃ t u : State, exec (.cal 0) caller = .next t ∧ t.frames.length = caller.frames.length + 1 ∧
      Host.Core.run Sys2Proof.core 2 t = .next u ∧ u.frames.length = caller.frames.length ∧
      (∀ v : State, Host.Core.run Sys2Proof.core 0 t = .next v → caller.frames.length < v.frames.length) ∧
      ∀ v : State, Host.Core.run Sys2Proof.core 1 t = .next v → caller.frames.length < v.frames.length := by
  refine ⟨_, _, rfl, rfl, rfl, rfl, ?_, ?_⟩
  · intro v h; cases h; decide
  · intro v h; cases h; decide

theorem test_witness_StepDoesNotSeeTheCallers :
    ∃ t, step { prog [0x01] with frames := [Context.fresh 0] } = .next t ∧ t.frames.length = 1 ∧
      [Context.fresh 7].length = 1 := ⟨_, rfl, rfl, rfl⟩

theorem test_witness_formats :
    OpcodeMap.table.Injective ∧ 0xC0 ≤ (0xC0 : Byte).toNat ∧ [(0 : Byte), 0, 0].length < Bank.b32.width / 8 ∧
      [(0 : Byte), 0, 0, 0].length = Bank.b32.width / 8 := by decide

theorem test_witness_LodLoadsTheImmediate :
    (Instr.lod ⟨.b32, 0⟩ 0xFFFFFFFF).wellFormed = true ∧ (Instr.lod ⟨.b128, 0⟩ (BitVec.allOnes 128)).wellFormed = true := by
  decide

theorem test_witness_IllFormedLodWritesTheLowBits : (Instr.lod ⟨.b32, 0⟩ 0x100000000).wellFormed = false := by decide

theorem test_witness_LodReadsBackItsBytes :
    (prog [0x02, 0x00, 0x80, 0, 0, 1]).status = .running ∧ 0 < (prog [0x02, 0x00, 0x80, 0, 0, 1]).lib.length ∧
      (prog [0x02, 0x00, 0x80, 0, 0, 1]).cfg.opcodeMap.Injective ∧ [(0x80 : Byte), 0, 0, 1].length = Bank.b32.width / 8 ∧
      (prog [0x02, 0x00, 0x80, 0, 0, 1]).stream =
        OpcodeMap.table.lod :: (Selector.mk .b32 0).toByte :: ([0x80, 0, 0, 1] ++ []) := by decide

theorem test_witness_LodReadsBackItsBytes_positive :
    (0x7F : Byte).toNat < 0x80 ∧ [(0x7F : Byte), 0xFF, 0xFF, 0xFF].length = Bank.b32.width / 8 ∧
      (prog [0x02, 0x00, 0x7F, 0xFF, 0xFF, 0xFF]).stream =
        OpcodeMap.table.lod :: (Selector.mk .b32 0).toByte :: ([0x7F, 0xFF, 0xFF, 0xFF] ++ []) := by decide

theorem test_witness_division :
    ((rr 7 2).cur.reg .b32 1).toInt ≠ 0 ∧ ((rr 7 0).cur.reg .b32 1).toInt = 0 ∧ Bank.b64 ≠ Bank.b32 ∧
      ¬ (((rr 7 2).cur.reg .b32 0).toInt = -(2 : Int) ^ 31 ∧ ((rr 7 2).cur.reg .b32 1).toInt = -1) := by decide

theorem test_witness_PshPushesLittleEndian :
    (capped.cfg.stackCap = some 8 ∧ capped.sp + Bank.b32.width / 8 ≤ 8) ∧ 8 < capped.sp + Bank.b64.width / 8 := by decide

theorem test_witness_PopReplacesTheRegister :
    (Bank.b32.width / 8 ≤ capped.sp ∧ ∀ k < 4, capped.readByte (capped.sp - 4 + k) ≠ none) ∧
      capped.sp < Bank.b64.width / 8 ∧
      (4 ≤ ({ capped with mem := [] } : State).sp ∧ ({ capped with mem := [] } : State).readByte 0 = none) := by decide

theorem test_witness_PopAfterPshRestores :
    (Selector.mk .b32 5).bank = (Selector.mk .b32 0).bank ∧ capped.Inv ∧
      ∀ cap, capped.cfg.stackCap = some cap → capped.sp + Bank.b32.width / 8 ≤ cap :=
  ⟨rfl, capped_inv, fun cap h => by cases h; decide⟩

theorem test_witness_PushesThenPopsInReverseRestore :
    State.reset.Inv ∧ ∀ cap, State.reset.cfg.stackCap = some cap →
      State.reset.sp + ([Selector.mk .b32 0, Selector.mk .b128 3].map fun a => a.bank.width / 8).sum ≤ cap :=
  ⟨test_witness_StepKeepsTheInvariant.1, nofun⟩

theorem test_witness_MixedWidthsShareTheBytes :
    State.reset.Inv ∧ (∀ cap, State.reset.cfg.stackCap = some cap → State.reset.sp + 8 ≤ cap) ∧ (0 : Fin 64) ≠ 1 :=
  ⟨test_witness_StepKeepsTheInvariant.1, nofun, by decide⟩

theorem test_witness_ObservationOnlyAfterTheEnd :
    (prog []).status = .running ∧ ({ prog [] with status := .halted } : State).ended ∧ (prog []).frames = [] ∧
      ({ prog [] with frames := [Context.fresh 1, Context.fresh 0] } : State).frames =
        [Context.fresh 1] ++ [Context.fresh 0] := ⟨rfl, nofun, rfl, rfl⟩

theorem test_witness_PlacedWordRunsNext :
    State.reset.cfg.opcodeMap = OpcodeMap.table ∧ decodeTableWord 16 0x4003 = some (.inc ⟨.b64, 0⟩) := by decide

end Sys2Proof.Tests
end

/-! PROOFS, 10_state.md R36: the frame stack over one step, then over a run of any length. The idea: from the call on,
the list of the caller and its own callers ends the list of all contexts, so when the depth is the caller's again it is
that whole list. -/

namespace Sys2Proof.Machine

/-- 10_state.md R30; 45_call.md R110, R113: what an instruction can do to the frame stack. -/
theorem exec_frames_cases {i : Instr} {s t : State} (h : exec i s = .next t) :
    t.frames = s.frames ∨ t.frames = s.cur.setPc (s.cur.pc + i.length) :: s.frames ∨
      s.frames = t.cur :: t.frames := by
  have hcase := exec_cases i s
  rw [h] at hcase
  generalize hr : Host.Outcome.next t = r at hcase
  cases hcase with
  | changed d => cases hr; exact .inl rfl
  | pushed a => cases hr; exact .inl rfl
  | popped a m => cases hr; exact .inl rfl
  | called tgt => cases hr; exact .inr (.inl rfl)
  | left =>
    cases hr
    cases hf : s.frames with
    | nil => left; simp [State.leaveContext_top s hf, hf]
    | cons caller rest => right; right; simp [State.leaveContext_nested s hf]
  | raised k d => rw [raise_next hr.symm]; exact .inl rfl
  | hole a => cases hr

/-- A step keeps every saved caller, in its place: among the saved callers still, or, the innermost, as the current
context. -/
theorem step_keeps_callers {s t : State} (h : step s = .next t) : s.frames <:+ t.contexts := by
  obtain ⟨-, -, ⟨i, rest, -, hexec⟩ | ⟨e, -, hraise⟩⟩ := step_cases h
  · obtain hsame | hcall | hreturn := exec_frames_cases hexec
    · rw [← hsame]; exact List.suffix_cons ..
    · exact (hcall ▸ List.suffix_cons .. : s.frames <:+ t.frames).trans (List.suffix_cons ..)
    · exact hreturn ▸ List.suffix_rfl
  · obtain ⟨k, o, d, rfl⟩ := raiseDecode_next hraise
    exact List.suffix_cons ..

/-- A run keeps the outermost contexts `saved`, as long as all of them wait: at every state before the last the depth
is at least their number. -/
theorem run_keeps_waiting {saved : List Context} {t u : State} {k : Nat} (ht : saved <:+ t.contexts)
    (hrun : Host.Core.run Sys2Proof.core k t = .next u)
    (hwait : ∀ j < k, ∀ v : State, Host.Core.run Sys2Proof.core j t = .next v → saved.length ≤ v.frames.length) :
    saved <:+ u.contexts := by
  induction k generalizing u with
  | zero => cases hrun; exact ht
  | succ k ih =>
    obtain ⟨v, hv, hstep⟩ := run_succ_last hrun
    have hsaved : saved <:+ v.contexts := ih hv fun j hj => hwait j (by omega)
    have hframes : saved <:+ v.frames :=
      List.suffix_of_suffix_length_le hsaved (List.suffix_cons ..) (hwait k (by omega) v hv)
    exact hframes.trans (step_keeps_callers hstep)

/-- 45_call.md R110: a CAL that raises the depth saves the caller with its pc behind the CAL, and nothing else. -/
theorem exec_cal_frames_of_deeper {tgt : Byte} {s t : State} (h : exec (.cal tgt) s = .next t)
    (hdeeper : t.frames.length = s.frames.length + 1) : t.frames = s.cur.setPc (s.cur.pc + 2) :: s.frames := by
  obtain hsame | hcall | hreturn := exec_frames_cases h
  · rw [hsame] at hdeeper; omega
  · exact hcall
  · rw [hreturn, List.length_cons] at hdeeper; omega

/-- Settles O26: the caller and its own callers end the contexts of every state of the run, and are all of them when
the depth is the caller's again. -/
theorem returnRestoresTheCaller : Obligations.ReturnRestoresTheCaller := by
  intro s t u tgt k hcal hdeeper hrun hdepth hwait
  have hframes := exec_cal_frames_of_deeper hcal hdeeper
  have hsaved : s.cur.setPc (s.cur.pc + 2) :: s.frames <:+ u.contexts :=
    run_keeps_waiting (hframes ▸ List.suffix_cons ..) hrun hwait
  have hall := hsaved.eq_of_length (congrArg (· + 1) hdepth.symm)
  exact ⟨(List.cons.inj hall).1.symm, (List.cons.inj hall).2.symm⟩

end Sys2Proof.Machine

/-! PROOFS, 30_encoding.md R66: the selector byte as a number. The idea: a selector's byte is 64 times its bank bits
plus its index, and decoding inverts `Selector.toByte`, so a byte of that value names that bank and index. -/

namespace Sys2Proof

theorem Selector.toByte_toNat (s : Selector) : s.toByte.toNat = 64 * s.bank.bits.toNat + s.index.val := by
  have hindex : s.index.val < 2 ^ 6 := s.index.isLt
  rw [Selector.toByte, BitVec.toNat_append, BitVec.toNat_ofNat, Nat.mod_eq_of_lt hindex,
    ← Nat.shiftLeft_add_eq_or_of_lt hindex, Nat.shiftLeft_eq, Nat.mul_comm]

/-- The byte of bank `b`'s bits over index `i` names register `i` of bank `b` (30_encoding.md R66). -/
theorem Selector.ofByte_of_toNat {sel : Byte} (b : Bank) {i : Nat} (hi : i < 64)
    (hsel : sel.toNat = 64 * b.bits.toNat + i) : Selector.ofByte sel = some ⟨b, Fin.ofNat 64 i⟩ := by
  have hbyte : sel = Selector.toByte ⟨b, Fin.ofNat 64 i⟩ := by
    apply BitVec.eq_of_toNat_eq
    rw [hsel, Selector.toByte_toNat, Fin.val_ofNat, Nat.mod_eq_of_lt hi]
  rw [hbyte, Selector.ofByte_toByte]

/-- Settles O5: one case for each range of 64 bytes. -/
theorem selectorByteNamesBankAndIndex : Obligations.SelectorByteNamesBankAndIndex := by
  intro sel
  split_ifs with h32 h64 h128
  · exact Selector.ofByte_of_toNat .b32 h32 (show _ = 64 * 0 + _ by omega)
  · exact Selector.ofByte_of_toNat .b64 (by omega) (show _ = 64 * 1 + _ by omega)
  · exact Selector.ofByte_of_toNat .b128 (by omega) (show _ = 64 * 2 + _ by omega)
  · exact (Selector.ofByte_eq_none_iff sel).mpr (by omega)

end Sys2Proof

/-! PROOFS, 40_execution.md R78, R80 to R82: where control goes after an instruction, HLT and NOP. The idea: an
instruction that completes either goes on behind itself, or is the CAL that enters its callee, or is the HLT that leaves
its context; and a context of which the pc alone is written keeps its registers, flags and remainders. -/

namespace Sys2Proof.Machine

/-! ### Format N (30_encoding.md R59) -/

/-- A mnemonic whose operands the decoder reads from no byte has format N. -/
theorem formN_of_decodeOperands {i : Instr} {byte : Byte} (hbyte : OpcodeMap.table.byteOf i.mnemonic = byte)
    (hoperands : i.operandBytes = [])
    (hdecode : ∀ op rest, decodeOperands op i.mnemonic rest = .ok (i, rest)) : FormN i i.mnemonic byte := by
  refine ⟨hbyte, ?_, fun om hinj => ⟨?_, rfl, fun rest => ?_⟩⟩
  · rw [← i.operandBytes_length, hoperands]; rfl
  · rw [encode, hoperands, Instr.opcode]
  · rw [decode_byteOf hinj, hdecode]

/-! ### The effect of NOP and of the two forms of HLT -/

theorem exec_nop (s : State) : exec .nop s = .next (s.advance .nop) := rfl

theorem exec_hlt (s : State) : exec .hlt s = .next s.leaveContext := rfl

/-- A write of the pc alone leaves the rest of the current context unchanged. -/
theorem sameContext_of_cur_setPc {s t : State} {p : Nat} (h : t.cur = s.cur.setPc p) :
    t.cur.seg = s.cur.seg ∧ s.SameRegisters t ∧ s.SameFlags t ∧ s.SameRemainders t := by
  refine ⟨?_, fun b i => ?_, ⟨?_, ?_, ?_⟩, fun b => ?_⟩ <;> simp [h]

/-- Settles O28: NOP is the advance of the pc by itself. -/
theorem nopOnlyAdvances : Obligations.NopOnlyAdvances := by
  refine ⟨formN_of_decodeOperands rfl rfl fun _ _ => rfl, fun s => ⟨_, exec_nop s, rfl, ?_⟩⟩
  obtain ⟨hseg, hregs, hflags, hrems⟩ := sameContext_of_cur_setPc (s.advance_cur .nop)
  exact ⟨hregs, hflags, hrems, ⟨rfl, fun _ => rfl⟩, rfl, rfl, hseg, rfl, rfl⟩

/-- Settles O23: the two clauses are the two forms of `leaveContext`, without and with a saved caller. -/
theorem hltHaltsOrReturns : Obligations.HltHaltsOrReturns := by
  refine ⟨formN_of_decodeOperands rfl rfl fun _ _ => rfl, fun s htop => ?_, fun s caller rest hnested => ?_⟩
  · obtain ⟨hseg, hregs, hflags, hrems⟩ :=
      sameContext_of_cur_setPc (t := { s.advance .hlt with status := .halted }) (s.advance_cur .hlt)
    rw [exec_hlt, s.leaveContext_top htop]
    exact ⟨_, rfl, rfl, rfl, htop, hseg, hregs, hflags, hrems, ⟨rfl, fun _ => rfl⟩, rfl, rfl⟩
  · rw [exec_hlt, s.leaveContext_nested hnested]
    exact ⟨_, rfl, rfl, rfl, rfl, ⟨rfl, fun _ => rfl⟩, rfl, rfl⟩

/-! ### Where control goes (40_execution.md R78) -/

/-- What an instruction that does not fault does to the pc and the frames: it goes on behind itself, or is a CAL that
enters its callee, or is an HLT that leaves its context. -/
theorem exec_completed_cases {i : Instr} {s t : State} (h : exec i s = .next t) (hok : ∀ r, t.status ≠ .faulted r) :
    (i ≠ .hlt ∧ (∀ k, i ≠ .cal k) ∧ t.cur.pc = s.cur.pc + i.length ∧ t.frames = s.frames) ∨
      (∃ k, i = .cal k ∧ t = (s.advance i).enterCall (s.callTarget k)) ∨ (i = .hlt ∧ t = s.leaveContext) := by
  have hcase := exec_cases i s
  rw [h] at hcase
  generalize hr : Host.Outcome.next t = r at hcase
  cases hcase with
  | changed d hlocal he =>
    cases hr
    refine .inl ⟨?_, fun k => ?_, he.pc, rfl⟩
    · rintro rfl; cases hlocal
    · rintro rfl; cases hlocal
  | pushed a hi => cases hr; subst hi; exact .inl ⟨nofun, nofun, rfl, rfl⟩
  | popped a m hi => cases hr; subst hi; exact .inl ⟨nofun, nofun, by simp, rfl⟩
  | called k hi => cases hr; exact .inr (.inl ⟨k, hi, rfl⟩)
  | left hi => cases hr; exact .inr (.inr ⟨hi, rfl⟩)
  | raised k d => exact absurd (congrArg State.status (raise_next hr.symm)) (hok _)
  | hole a => cases hr

/-- Settles O12: one clause for each way to complete. -/
theorem nextPcComesFromTheDecoder : Obligations.NextPcComesFromTheDecoder := by
  intro i s t h hok
  obtain ⟨hhlt, hcal, hgoes⟩ | ⟨k, rfl, rfl⟩ | ⟨rfl, rfl⟩ := exec_completed_cases h hok
  · exact ⟨fun _ _ => hgoes, fun k hk => absurd hk (hcal k), fun hi => absurd hi hhlt⟩
  · exact ⟨fun _ hcal => absurd rfl (hcal k), fun _ _ => ⟨rfl, _, rfl, rfl⟩, nofun⟩
  · refine ⟨fun hhlt => absurd rfl hhlt, nofun, fun _ caller rest hnested => ?_⟩
    rw [s.leaveContext_nested hnested]
    exact ⟨rfl, rfl⟩

end Sys2Proof.Machine

/-! PROOFS, 41_load.md R87: LOD. The idea: format RI fetches and checks the selector before the immediate, one branch
of the decoder for each clause; the immediate of a bank's bytes is the number that they spell big-endian, so it fits
the bank, and the write to the destination loses nothing of it. -/

namespace Sys2Proof

/-! ### Format RI (30_encoding.md R59, R61) -/

/-- Byte `k` of a number read big-endian, as a bit field (00_scope.md R12). -/
theorem extract_ofNat_beNat {w : Nat} {bs : List Byte} {k : Nat} (hk : k < bs.length) (hw : 8 * bs.length ≤ w) :
    bs[k]? = some ((BitVec.ofNat w (beNat bs)).extractLsb' (8 * (bs.length - 1 - k)) 8) := by
  have hle := extract_ofNat_leNat w bs.reverse (bs.length - 1 - k) (by simp; omega) (by simpa using hw)
  rwa [List.getElem?_reverse (by omega), show bs.length - 1 - (bs.length - 1 - k) = k by omega] at hle

theorem decodeRI_nil (mk : Selector → BitVec 128 → Instr) (op : Byte) :
    decodeRI mk op [] = .error (.streamOverrun (some op)) := rfl

theorem decodeRI_invalid (mk : Selector → BitVec 128 → Instr) (op : Byte) {sel : Byte} (h : 0xC0 ≤ sel.toNat)
    (bs : List Byte) : decodeRI mk op (sel :: bs) = .error (.invalidSelector op sel) := by
  rw [decodeRI, fetchSel_invalid op ((Selector.ofByte_eq_none_iff sel).mpr h)]

theorem decodeRI_short (mk : Selector → BitVec 128 → Instr) (op : Byte) (a : Selector) {bs : List Byte}
    (h : bs.length < a.bank.bytes) : decodeRI mk op (a.toByte :: bs) = .error (.streamOverrun (some op)) := by
  simp only [decodeRI, fetchSel_toByte, fetch_short op h]

theorem decodeRI_append (mk : Selector → BitVec 128 → Instr) (op : Byte) (a : Selector) {m : List Byte}
    (h : m.length = a.bank.bytes) (rest : List Byte) :
    decodeRI mk op (a.toByte :: (m ++ rest)) = .ok (mk a (BitVec.ofNat 128 (beNat m)), rest) := by
  simp only [decodeRI, fetchSel_toByte, ← h, fetch_append]

/-- LOD is the one instruction of format RI. -/
theorem decode_lod {om : OpcodeMap} (hinj : om.Injective) (bs : List Byte) :
    decode om (om.byteOf .lod :: bs) = decodeRI .lod (om.byteOf .lod) bs := decode_byteOf hinj .lod bs

theorem Instr.wellFormed_lod {a : Selector} {imm : BitVec 128} :
    (Instr.lod a imm).wellFormed = true ↔ imm.toNat < 2 ^ a.bank.width := decide_eq_true_iff

/-- 30_encoding.md R61: any bytes of the bank's number are an immediate of the bank's width, and its encoding. -/
theorem decode_lod_append {om : OpcodeMap} (hinj : om.Injective) {a : Selector} {m : List Byte}
    (hm : m.length = a.bank.bytes) (rest : List Byte) :
    ∃ imm, decode om (om.byteOf .lod :: a.toByte :: (m ++ rest)) = .ok (.lod a imm, rest) ∧
      (Instr.lod a imm).wellFormed = true ∧ encode om (.lod a imm) = om.byteOf .lod :: a.toByte :: m ∧
      ∀ k < a.bank.bytes, m[k]? = some (imm.extractLsb' (8 * (a.bank.bytes - 1 - k)) 8) := by
  obtain ⟨hfits, hbytes⟩ := immediate_of_bytes a.bank hm
  refine ⟨BitVec.ofNat 128 (beNat m), ?_, Instr.wellFormed_lod.mpr hfits, ?_, fun k hk => ?_⟩
  · rw [decode_lod hinj, decodeRI_append _ _ _ hm]
  · rw [encode, Instr.operandBytes, hbytes]; rfl
  · have hwidth : 8 * m.length ≤ 128 := by rw [hm, Bank.eight_mul_bytes]; exact a.bank.width_le
    rw [← hm] at hk ⊢
    exact extract_ofNat_beNat hk hwidth

end Sys2Proof

namespace Sys2Proof.Machine

/-! ### The effect of LOD -/

/-- An instruction that completes with one register write changes that register and the pc alone. -/
theorem writesOnly_of_completeA {i : Instr} {s : State} {a : Selector} {v : BitVec a.bank.width} {n : Nat}
    (h : exec i s = s.completeA i a v) (hlen : i.length = n) : WritesOnly i s a v n := by
  rw [WritesOnly, h, ← hlen]
  exact s.completeA_spec i a v

/-- 30_encoding.md R61: an immediate that fits its bank is neither extended nor truncated. -/
theorem immOperand_toNat {b : Bank} {imm : BitVec 128} (h : imm.toNat < 2 ^ b.width) :
    (immOperand b imm).toNat = imm.toNat := by
  rw [immOperand, BitVec.toNat_ofNat, Nat.mod_eq_of_lt h]

/-- Settles O29: one lemma for each branch of format RI, and the one register write. -/
theorem lodLoadsTheImmediate : Obligations.LodLoadsTheImmediate := by
  simp only [Obligations.LodLoadsTheImmediate, Bank.width_div_eight]
  refine ⟨⟨rfl, fun _ _ => rfl, fun om hinj => ⟨rfl, ?_, fun x rest hx => ?_, fun a m hm => ?_, ?_⟩⟩, ?_⟩
  · rw [decode_lod hinj, decodeRI_nil]
  · rw [decode_lod hinj, decodeRI_invalid _ _ hx]
  · rw [decode_lod hinj, decodeRI_short _ _ _ hm]
  · exact fun a m rest hm => decode_lod_append hinj hm rest
  · exact fun a imm s hwf => ⟨_, immOperand_toNat (Instr.wellFormed_lod.mp hwf), writesOnly_of_completeA rfl rfl⟩

end Sys2Proof.Machine

/-! PROOFS, 42_arithmetic.md R91 to R94: INC, ADD, SUB, MUL. The idea: format RR is a selector followed by format R, so
the clauses about operand b are those of format R behind an accepted operand a; and each of the four instructions
completes with the one register write of `completeA`, both operands read before it in a's bank. -/

namespace Sys2Proof

/-! ### Formats R and RR (30_encoding.md R59, R67) -/

theorem decodeR_nil (mk : Selector → Instr) (op : Byte) : decodeR mk op [] = .error (.streamOverrun (some op)) := rfl

theorem decodeR_invalid (mk : Selector → Instr) (op : Byte) {sel : Byte} (h : 0xC0 ≤ sel.toNat) (bs : List Byte) :
    decodeR mk op (sel :: bs) = .error (.invalidSelector op sel) := by
  rw [decodeR, fetchSel_invalid op ((Selector.ofByte_eq_none_iff sel).mpr h)]

theorem decodeR_toByte (mk : Selector → Instr) (op : Byte) (a : Selector) (rest : List Byte) :
    decodeR mk op (a.toByte :: rest) = .ok (mk a, rest) := by
  rw [decodeR, fetchSel_toByte]

theorem decodeRR_nil (mk : Selector → Selector → Instr) (op : Byte) :
    decodeRR mk op [] = .error (.streamOverrun (some op)) := rfl

theorem decodeRR_invalid (mk : Selector → Selector → Instr) (op : Byte) {sel : Byte} (h : 0xC0 ≤ sel.toNat)
    (bs : List Byte) : decodeRR mk op (sel :: bs) = .error (.invalidSelector op sel) := by
  rw [decodeRR, fetchSel_invalid op ((Selector.ofByte_eq_none_iff sel).mpr h)]

/-- Behind a valid selector a, format RR goes on as format R. -/
theorem decodeRR_toByte (mk : Selector → Selector → Instr) (op : Byte) (a : Selector) (bs : List Byte) :
    decodeRR mk op (a.toByte :: bs) = decodeR (mk a) op bs := by
  rw [decodeRR, fetchSel_toByte]

end Sys2Proof

namespace Sys2Proof.Machine

/-- A mnemonic whose operands the decoder reads by `decodeR`, and the encoder writes as one selector, has format R. -/
theorem formR_of_decodeOperands {mk : Selector → Instr} {m : Mnemonic} {byte : Byte}
    (hbyte : OpcodeMap.table.byteOf m = byte) (hencode : ∀ om a, encode om (mk a) = [om.byteOf m, a.toByte])
    (hdecode : ∀ op, decodeOperands op m = decodeR mk op) : FormR mk m byte := by
  refine ⟨hbyte, fun a => ?_, fun om hinj => ⟨hencode om, rfl, ?_, fun x rest hx => ?_, fun a rest => ?_⟩⟩
  · rw [← Laws.EncodedLength.of_operands (mk a) OpcodeMap.table, hencode]; rfl
  · rw [decode_byteOf hinj, hdecode, decodeR_nil]
  · rw [decode_byteOf hinj, hdecode, decodeR_invalid _ _ hx]
  · rw [decode_byteOf hinj, hdecode, decodeR_toByte]

/-- A mnemonic whose operands the decoder reads by `decodeRR`, and the encoder writes as two selectors, has format
RR. -/
theorem formRR_of_decodeOperands {mk : Selector → Selector → Instr} {m : Mnemonic} {byte : Byte}
    (hbyte : OpcodeMap.table.byteOf m = byte)
    (hencode : ∀ om a b, encode om (mk a b) = [om.byteOf m, a.toByte, b.toByte])
    (hdecode : ∀ op, decodeOperands op m = decodeRR mk op) : FormRR mk m byte := by
  refine ⟨hbyte, fun a b => ?_, fun om hinj => ⟨hencode om, rfl, ?_, fun x rest hx => ?_, fun a => ?_,
    fun a x rest hx => ?_, fun a b rest => ?_⟩⟩
  · rw [← Laws.EncodedLength.of_operands (mk a b) OpcodeMap.table, hencode]; rfl
  · rw [decode_byteOf hinj, hdecode, decodeRR_nil]
  · rw [decode_byteOf hinj, hdecode, decodeRR_invalid _ _ hx]
  · rw [decode_byteOf hinj, hdecode, decodeRR_toByte, decodeR_nil]
  · rw [decode_byteOf hinj, hdecode, decodeRR_toByte, decodeR_invalid _ _ hx]
  · rw [decode_byteOf hinj, hdecode, decodeRR_toByte, decodeR_toByte]

/-! ### The effects of INC, ADD, SUB, MUL -/

theorem exec_inc (a : Selector) (s : State) :
    exec (.inc a) s = s.completeA (.inc a) a (aluInc (s.operandA a)) := rfl

theorem exec_add (a b : Selector) (s : State) :
    exec (.add a b) s = s.completeA (.add a b) a (aluAdd (s.operandA a) (s.operandB a b)) := rfl

theorem exec_sub (a b : Selector) (s : State) :
    exec (.sub a b) s = s.completeA (.sub a b) a (aluSub (s.operandA a) (s.operandB a b)) := rfl

theorem exec_mul (a b : Selector) (s : State) :
    exec (.mul a b) s = s.completeA (.mul a b) a (aluMul (s.operandA a) (s.operandB a b)) := rfl

/-- Settles O31: format R, and the one register write of INC. -/
theorem incAddsOne : Obligations.IncAddsOne :=
  ⟨formR_of_decodeOperands rfl (fun _ _ => rfl) fun _ => rfl, fun a s => writesOnly_of_completeA (exec_inc a s) rfl⟩

/-- Settles O32: format RR, and the one register write of ADD. -/
theorem addAddsInTheBankOfA : Obligations.AddAddsInTheBankOfA :=
  ⟨formRR_of_decodeOperands rfl (fun _ _ _ => rfl) fun _ => rfl,
    fun a b s => writesOnly_of_completeA (exec_add a b s) rfl⟩

/-- Settles O33: format RR, and the one register write of SUB. -/
theorem subSubtractsInTheBankOfA : Obligations.SubSubtractsInTheBankOfA :=
  ⟨formRR_of_decodeOperands rfl (fun _ _ _ => rfl) fun _ => rfl,
    fun a b s => writesOnly_of_completeA (exec_sub a b s) rfl⟩

/-- Settles O34: format RR, and the one register write of MUL. -/
theorem mulMultipliesInTheBankOfA : Obligations.MulMultipliesInTheBankOfA :=
  ⟨formRR_of_decodeOperands rfl (fun _ _ _ => rfl) fun _ => rfl,
    fun a b s => writesOnly_of_completeA (exec_mul a b s) rfl⟩

end Sys2Proof.Machine

/-! PROOFS, 43_shift_logic.md R101 to R104: AND, OR, XOR, NOT. The idea: each completes with the one register write of
`completeA`, and the value written is a bitwise operation of `BitVec`, of which the library says the bits; as an
integer, the complement of a word is `-A - 1`, which holds at every width but 0. -/

namespace Sys2Proof.Machine

/-! ### The effects of AND, OR, XOR, NOT -/

theorem exec_and (a b : Selector) (s : State) :
    exec (.and a b) s = s.completeA (.and a b) a (s.operandA a &&& s.operandB a b) := rfl

theorem exec_or (a b : Selector) (s : State) :
    exec (.or a b) s = s.completeA (.or a b) a (s.operandA a ||| s.operandB a b) := rfl

theorem exec_xor (a b : Selector) (s : State) :
    exec (.xor a b) s = s.completeA (.xor a b) a (s.operandA a ^^^ s.operandB a b) := rfl

theorem exec_not (a : Selector) (s : State) :
    exec (.not a) s = s.completeA (.not a) a (~~~(s.operandA a)) := rfl

/-- Settles O40: format RR, the one register write of AND, and the bits of `&&&`. -/
theorem andIsBitwise : Obligations.AndIsBitwise :=
  ⟨formRR_of_decodeOperands rfl (fun _ _ _ => rfl) fun _ => rfl,
    fun a b s => ⟨_, writesOnly_of_completeA (exec_and a b s) rfl, fun _ _ => BitVec.getLsbD_and⟩⟩

/-- Settles O41: format RR, the one register write of OR, and the bits of `|||`. -/
theorem orIsBitwise : Obligations.OrIsBitwise :=
  ⟨formRR_of_decodeOperands rfl (fun _ _ _ => rfl) fun _ => rfl,
    fun a b s => ⟨_, writesOnly_of_completeA (exec_or a b s) rfl, fun _ _ => BitVec.getLsbD_or⟩⟩

/-- Settles O42: format RR, the one register write of XOR, and the bits of `^^^`. -/
theorem xorIsBitwise : Obligations.XorIsBitwise :=
  ⟨formRR_of_decodeOperands rfl (fun _ _ _ => rfl) fun _ => rfl,
    fun a b s => ⟨_, writesOnly_of_completeA (exec_xor a b s) rfl, fun _ _ => BitVec.getLsbD_xor⟩⟩

/-! ### The complement as an integer -/

/-- A word and its complement have opposite sign bits, so exactly one of the two signed readings subtracts `2^w`; the
empty word has no sign bit and is its own complement. -/
theorem toInt_not_eq_neg_sub_one {w : Nat} (hw : 0 < w) (x : BitVec w) : (~~~x).toInt = -x.toInt - 1 := by
  obtain ⟨n, rfl⟩ := Nat.exists_eq_add_of_lt hw
  have hx := x.isLt
  rw [BitVec.toInt_eq_toNat_cond, BitVec.toInt_eq_toNat_cond, BitVec.toNat_not]
  rw [Nat.pow_succ] at hx ⊢
  split <;> split <;> omega

/-- Settles O43: format R, the one register write of NOT, its bits, and the complement as an integer. -/
theorem notInvertsEveryBit : Obligations.NotInvertsEveryBit := by
  refine ⟨formR_of_decodeOperands rfl (fun _ _ => rfl) fun _ => rfl, fun a s =>
    ⟨_, writesOnly_of_completeA (exec_not a s) rfl, fun j hj => ?_, toInt_not_eq_neg_sub_one a.bank.width_pos _⟩⟩
  rw [BitVec.getLsbD_not, decide_eq_true hj, Bool.true_and, State.operandA]

end Sys2Proof.Machine

/-! PROOFS, 44_compare.md R106: CMP. The idea: CMP writes the three flags and advances, which leaves the rest of the
state unchanged; and the flags are the three cases of the trichotomy of the integers, so exactly one of them holds. -/

namespace Sys2Proof.Machine

/-! ### The three flags of a comparison -/

theorem flagEq_iff {w : Nat} {x y : BitVec w} : flagEq x y = true ↔ x.toInt = y.toInt := decide_eq_true_iff

theorem flagLt_iff {w : Nat} {x y : BitVec w} : flagLt x y = true ↔ x.toInt < y.toInt := decide_eq_true_iff

theorem flagGt_iff {w : Nat} {x y : BitVec w} : flagGt x y = true ↔ x.toInt > y.toInt := decide_eq_true_iff

/-- Exactly one flag of a comparison is true: one case for each order of the two integers. -/
theorem count_true_flags {w : Nat} (x y : BitVec w) : [flagEq x y, flagLt x y, flagGt x y].count true = 1 := by
  obtain hlt | heq | hgt := Int.lt_trichotomy x.toInt y.toInt
  · simp [flagEq, flagLt, flagGt, hlt, hlt.ne, hlt.le]
  · simp [flagEq, flagLt, flagGt, heq]
  · simp [flagEq, flagLt, flagGt, hgt, hgt.ne', hgt.le]

/-! ### The effect of CMP -/

theorem exec_cmp (a b : Selector) (s : State) :
    exec (.cmp a b) s = .next ((s.writeFlags (flagEq (s.operandA a) (s.operandB a b))
      (flagLt (s.operandA a) (s.operandB a b)) (flagGt (s.operandA a) (s.operandB a b))).advance (.cmp a b)) := rfl

/-- A write of the flags and the advance behind it change the flags and the pc alone. -/
theorem State.writeFlags_advance_frame (s : State) (e l g : Bool) (i : Instr) :
    s.SameRegisters ((s.writeFlags e l g).advance i) ∧ s.SameRemainders ((s.writeFlags e l g).advance i) ∧
      s.SameScratch ((s.writeFlags e l g).advance i) ∧ s.SameRun ((s.writeFlags e l g).advance i) := by
  refine ⟨fun b j => ?_, fun b => ?_, ⟨rfl, fun _ => rfl⟩, rfl, rfl, rfl, rfl, rfl⟩
  · simp
  · simp

/-- Settles O44: format RR, the three flags of CMP, the trichotomy, and the frame of the flags' write. -/
theorem cmpSetsExactlyOneFlag : Obligations.CmpSetsExactlyOneFlag := by
  refine ⟨formRR_of_decodeOperands rfl (fun _ _ _ => rfl) fun _ => rfl, fun a b s => ⟨_, exec_cmp a b s, ?_⟩⟩
  obtain ⟨hregs, hrems, hscratch, hrun⟩ := s.writeFlags_advance_frame (flagEq (s.operandA a) (s.operandB a b))
    (flagLt (s.operandA a) (s.operandB a b)) (flagGt (s.operandA a) (s.operandB a b)) (.cmp a b)
  exact ⟨flagEq_iff, flagLt_iff, flagGt_iff, count_true_flags _ _, hregs, hrems, hscratch, hrun, rfl⟩

end Sys2Proof.Machine

/-! PROOFS, 30_encoding.md R57 to R73: the decoder and the encoder. The idea: behind the opcode byte both work by
format, so each claim is proved once for each format (its encoded operands decode back, any of them missing overruns,
what it accepts is encoded operands, the errors it can raise) and then read off the format of each mnemonic. -/

namespace Sys2Proof

/-! ### Formats RS, T and RI on encoded operands (30_encoding.md R61 to R63) -/

theorem decodeRS_nil (mk : Selector → Byte → Instr) (op : Byte) :
    decodeRS mk op [] = .error (.streamOverrun (some op)) := rfl

theorem decodeRS_invalid (mk : Selector → Byte → Instr) (op : Byte) {sel : Byte} (h : 0xC0 ≤ sel.toNat)
    (bs : List Byte) : decodeRS mk op (sel :: bs) = .error (.invalidSelector op sel) := by
  rw [decodeRS, fetchSel_invalid op ((Selector.ofByte_eq_none_iff sel).mpr h)]

theorem decodeRS_short (mk : Selector → Byte → Instr) (op : Byte) (a : Selector) :
    decodeRS mk op [a.toByte] = .error (.streamOverrun (some op)) := by
  simp only [decodeRS, fetchSel_toByte, fetchByte_nil]

theorem decodeRS_toByte (mk : Selector → Byte → Instr) (op : Byte) (a : Selector) (k : Byte) (rest : List Byte) :
    decodeRS mk op (a.toByte :: k :: rest) = .ok (mk a k, rest) := by
  simp only [decodeRS, fetchSel_toByte, fetchByte_cons]

theorem decodeT_nil (mk : Byte → Instr) (op : Byte) : decodeT mk op [] = .error (.streamOverrun (some op)) := rfl

theorem decodeT_cons (mk : Byte → Instr) (op k : Byte) (rest : List Byte) :
    decodeT mk op (k :: rest) = .ok (mk k, rest) := rfl

/-- Format RI reads back the encoded bytes of an immediate that fits its bank. -/
theorem decodeRI_beBytes (mk : Selector → BitVec 128 → Instr) (op : Byte) (a : Selector) {imm : BitVec 128}
    (h : imm.toNat < 2 ^ a.bank.width) (rest : List Byte) :
    decodeRI mk op (a.toByte :: (beBytes a.bank.bytes imm.toNat ++ rest)) = .ok (mk a imm, rest) := by
  rw [decodeRI_append mk op a (beBytes_length ..) rest, immediate_to_bytes a.bank h]

/-! ### Decoding an encoding (30_encoding.md R71) -/

/-- The operand bytes of a well-formed instruction decode to it: one line for each format. -/
theorem decodeOperands_operandBytes (op : Byte) {i : Instr} (hwf : i.wellFormed = true) (rest : List Byte) :
    decodeOperands op i.mnemonic (i.operandBytes ++ rest) = .ok (i, rest) := by
  cases i with
  | hlt | nop => rfl
  | lod a imm => exact decodeRI_beBytes .lod op a (Instr.wellFormed_lod.mp hwf) rest
  | inc a | not a | psh a | pop a => exact decodeR_toByte _ op a rest
  | shr a k | shl a k => exact decodeRS_toByte _ op a k rest
  | cal k => exact decodeT_cons _ op k rest
  | add a b | sub a b | mul a b | div a b | mod a b | and a b | or a b | xor a b | cmp a b =>
    exact (decodeRR_toByte _ op a _).trans (decodeR_toByte _ op b rest)

/-- Settles O1: the opcode byte selects the mnemonic, and its operand bytes decode back. -/
theorem encodedInstructionDecodesBack : Obligations.EncodedInstructionDecodesBack := by
  intro om i rest hinj hwf
  rw [encode, List.cons_append, Instr.opcode, decode_byteOf hinj, decodeOperands_operandBytes _ hwf]

/-! ### What the decoder accepts (30_encoding.md R73) -/

/-- The operands a mnemonic's format accepts are the operand bytes of a well-formed instruction of that mnemonic. -/
theorem decodeOperands_ok {op : Byte} {m : Mnemonic} {bs rest : List Byte} {i : Instr}
    (h : decodeOperands op m bs = .ok (i, rest)) :
    i.mnemonic = m ∧ i.wellFormed = true ∧ bs = i.operandBytes ++ rest := by
  cases m with
  | hlt | nop => cases h; exact ⟨rfl, rfl, rfl⟩
  | lod =>
    obtain ⟨a, imm, rfl, hfits, rfl⟩ := decodeRI_ok h
    exact ⟨rfl, Instr.wellFormed_lod.mpr hfits, rfl⟩
  | inc | not | psh | pop =>
    obtain ⟨a, rfl, rfl⟩ := decodeR_ok h
    exact ⟨rfl, rfl, rfl⟩
  | shr | shl =>
    obtain ⟨a, k, rfl, rfl⟩ := decodeRS_ok h
    exact ⟨rfl, rfl, rfl⟩
  | cal =>
    obtain ⟨k, rfl, rfl⟩ := decodeT_ok h
    exact ⟨rfl, rfl, rfl⟩
  | add | sub | mul | div | mod | and | or | xor | cmp =>
    obtain ⟨a, b, rfl, rfl⟩ := decodeRR_ok h
    exact ⟨rfl, rfl, rfl⟩

/-- Behind an opcode byte in the map the decoder reads operands; outside the map it refuses the byte. -/
theorem decode_cons (om : OpcodeMap) (op : Byte) (bs : List Byte) :
    (∃ m, om.byteOf m = op ∧ decode om (op :: bs) = decodeOperands op m bs) ∨
      ((∀ m, om.byteOf m ≠ op) ∧ decode om (op :: bs) = .error (.unknownOpcode op)) := by
  cases hm : om.mnemonicOf op with
  | some m => exact .inl ⟨m, OpcodeMap.byteOf_of_mnemonicOf hm, by simp only [decode, hm]⟩
  | none => exact .inr ⟨OpcodeMap.mnemonicOf_eq_none_iff.mp hm, by simp only [decode, hm]⟩

/-- Accepted bytes are the encoding of a well-formed instruction, then the bytes left over. -/
theorem decode_ok {om : OpcodeMap} {bs rest : List Byte} {i : Instr} (h : decode om bs = .ok (i, rest)) :
    i.wellFormed = true ∧ bs = encode om i ++ rest := by
  cases bs with
  | nil => cases h
  | cons op bs =>
    obtain ⟨m, rfl, hm⟩ | ⟨-, hm⟩ := decode_cons om op bs
    · obtain ⟨rfl, hwf, rfl⟩ := decodeOperands_ok (hm.symm.trans h)
      exact ⟨hwf, rfl⟩
    · cases hm.symm.trans h

/-- Settles O2: what `decode_ok` says, with the length of an encoding. -/
theorem decodedBytesAreTheEncoding : Obligations.DecodedBytesAreTheEncoding := by
  intro om bs i rest h
  obtain ⟨hwf, hbs⟩ := decode_ok h
  exact ⟨hwf, hbs, Laws.EncodedLength.of_operands i om⟩

/-! ### Missing operand bytes (30_encoding.md R57) -/

theorem decodeR_take (mk : Selector → Instr) (op : Byte) (a : Selector) {n : Nat} (hn : n < 1) :
    decodeR mk op ([a.toByte].take n) = .error (.streamOverrun (some op)) := by
  obtain rfl : n = 0 := by omega
  rfl

theorem decodeRR_take (mk : Selector → Selector → Instr) (op : Byte) (a b : Selector) {n : Nat} (hn : n < 2) :
    decodeRR mk op ([a.toByte, b.toByte].take n) = .error (.streamOverrun (some op)) := by
  cases n with
  | zero => rfl
  | succ n => rw [List.take_succ_cons, decodeRR_toByte, decodeR_take _ _ _ (by omega)]

theorem decodeRS_take (mk : Selector → Byte → Instr) (op : Byte) (a : Selector) (k : Byte) {n : Nat} (hn : n < 2) :
    decodeRS mk op ([a.toByte, k].take n) = .error (.streamOverrun (some op)) := by
  cases n with
  | zero => rfl
  | succ n =>
    obtain rfl : n = 0 := by omega
    exact decodeRS_short mk op a

theorem decodeT_take (mk : Byte → Instr) (op k : Byte) {n : Nat} (hn : n < 1) :
    decodeT mk op ([k].take n) = .error (.streamOverrun (some op)) := by
  obtain rfl : n = 0 := by omega
  rfl

theorem decodeRI_take (mk : Selector → BitVec 128 → Instr) (op : Byte) (a : Selector) (x : Nat) {n : Nat}
    (hn : n < a.bank.bytes + 1) :
    decodeRI mk op ((a.toByte :: beBytes a.bank.bytes x).take n) = .error (.streamOverrun (some op)) := by
  cases n with
  | zero => rfl
  | succ n =>
    rw [List.take_succ_cons, decodeRI_short]
    rw [List.length_take, beBytes_length]
    omega

/-- Operand bytes cut short overrun, in every format. -/
theorem decodeOperands_take (op : Byte) {i : Instr} {n : Nat} (hn : n < i.operandBytes.length) :
    decodeOperands op i.mnemonic (i.operandBytes.take n) = .error (.streamOverrun (some op)) := by
  cases i with
  | hlt | nop => cases hn
  | lod a imm => exact decodeRI_take .lod op a imm.toNat (by simpa [Instr.operandBytes] using hn)
  | inc a | not a | psh a | pop a => exact decodeR_take _ op a hn
  | shr a k | shl a k => exact decodeRS_take _ op a k hn
  | cal k => exact decodeT_take _ op k hn
  | add a b | sub a b | mul a b | div a b | mod a b | and a b | or a b | xor a b | cmp a b =>
    exact decodeRR_take _ op a b hn

/-- Settles O3: the opcode fetch overruns on no byte, an operand fetch on every longer part of the encoding. -/
theorem truncatedEncodingOverruns : Obligations.TruncatedEncodingOverruns := by
  intro om i n hinj _ hn
  cases n with
  | zero => rfl
  | succ n =>
    have hoperands : n < i.operandBytes.length := by
      have := i.operandBytes_length
      omega
    rw [encode, List.take_succ_cons, Instr.opcode, decode_byteOf hinj, decodeOperands_take _ hoperands]
    rfl

/-! ### The errors of the decoder (30_encoding.md R72) -/

/-- An operand error of the instruction with opcode byte `op`: it carries that byte (60_exceptions.md R124). -/
def OperandError (op : Byte) (e : DecodeError) : Prop :=
  e = .streamOverrun (some op) ∨ ∃ sel, e = .invalidSelector op sel

theorem fetchSel_error {op : Byte} {bs : List Byte} {e : DecodeError} (h : fetchSel op bs = .error e) :
    OperandError op e := by
  cases bs with
  | nil => cases h; exact .inl rfl
  | cons b bs =>
    cases hs : Selector.ofByte b with
    | some s => simp only [fetchSel, hs] at h; cases h
    | none => rw [fetchSel_invalid op hs] at h; cases h; exact .inr ⟨b, rfl⟩

theorem fetchByte_error {op : Byte} {bs : List Byte} {e : DecodeError} (h : fetchByte op bs = .error e) :
    OperandError op e := by
  cases bs with
  | nil => cases h; exact .inl rfl
  | cons b bs => cases h

theorem fetch_error {op : Byte} {n : Nat} {bs : List Byte} {e : DecodeError} (h : fetch op n bs = .error e) :
    OperandError op e := by
  by_cases hn : n ≤ bs.length
  · simp only [fetch, if_pos hn] at h; cases h
  · rw [fetch_short op (Nat.not_le.mp hn)] at h; cases h; exact .inl rfl

theorem decodeR_error {mk : Selector → Instr} {op : Byte} {bs : List Byte} {e : DecodeError}
    (h : decodeR mk op bs = .error e) : OperandError op e := by
  unfold decodeR at h
  split at h
  · cases h
  · next hf => cases h; exact fetchSel_error hf

theorem decodeRR_error {mk : Selector → Selector → Instr} {op : Byte} {bs : List Byte} {e : DecodeError}
    (h : decodeRR mk op bs = .error e) : OperandError op e := by
  unfold decodeRR at h
  split at h
  · exact decodeR_error h
  · next hf => cases h; exact fetchSel_error hf

theorem decodeRS_error {mk : Selector → Byte → Instr} {op : Byte} {bs : List Byte} {e : DecodeError}
    (h : decodeRS mk op bs = .error e) : OperandError op e := by
  unfold decodeRS at h
  split at h
  · split at h
    · cases h
    · next hf => cases h; exact fetchByte_error hf
  · next hf => cases h; exact fetchSel_error hf

theorem decodeRI_error {mk : Selector → BitVec 128 → Instr} {op : Byte} {bs : List Byte} {e : DecodeError}
    (h : decodeRI mk op bs = .error e) : OperandError op e := by
  unfold decodeRI at h
  split at h
  · split at h
    · cases h
    · next hf => cases h; exact fetch_error hf
  · next hf => cases h; exact fetchSel_error hf

theorem decodeT_error {mk : Byte → Instr} {op : Byte} {bs : List Byte} {e : DecodeError}
    (h : decodeT mk op bs = .error e) : OperandError op e := by
  unfold decodeT at h
  split at h
  · cases h
  · next hf => cases h; exact fetchByte_error hf

/-- The operands of a known opcode raise operand errors only. -/
theorem decodeOperands_error {op : Byte} {m : Mnemonic} {bs : List Byte} {e : DecodeError}
    (h : decodeOperands op m bs = .error e) : OperandError op e := by
  cases m with
  | hlt | nop => cases h
  | lod => exact decodeRI_error h
  | inc | not | psh | pop => exact decodeR_error h
  | shr | shl => exact decodeRS_error h
  | cal => exact decodeT_error h
  | add | sub | mul | div | mod | and | or | xor | cmp => exact decodeRR_error h

/-- An opcode byte is refused exactly when the map does not have it. -/
theorem decode_unknownOpcode_iff {om : OpcodeMap} {op : Byte} {rest : List Byte} :
    decode om (op :: rest) = .error (.unknownOpcode op) ↔ ∀ m, om.byteOf m ≠ op := by
  obtain ⟨m, hm, hdecode⟩ | ⟨hunmapped, hdecode⟩ := decode_cons om op rest
  · refine ⟨fun h => ?_, fun h => absurd hm (h m)⟩
    obtain herr | ⟨sel, herr⟩ := decodeOperands_error (hdecode.symm.trans h) <;> cases herr
  · exact iff_of_true hdecode hunmapped

/-- The default map has the bytes below 0x13 (30_encoding.md R64). -/
theorem OpcodeMap.table_mnemonicOf_eq_none_iff (op : Byte) :
    OpcodeMap.table.mnemonicOf op = none ↔ 0x13 ≤ op.toNat := by
  revert op; decide

/-- A selector byte is refused exactly from 0xC0 on (30_encoding.md R67). -/
theorem fetchSel_invalidSelector_iff {op sel : Byte} {rest : List Byte} :
    fetchSel op (sel :: rest) = .error (.invalidSelector op sel) ↔ 0xC0 ≤ sel.toNat := by
  rw [← Selector.ofByte_eq_none_iff]
  refine ⟨fun h => ?_, fun h => fetchSel_invalid op h rest⟩
  cases hs : Selector.ofByte sel with
  | none => rfl
  | some s => simp only [fetchSel, hs] at h; cases h

/-- Settles O4: one lemma for each way to be illegal, and the formats of the bytes that never are. -/
theorem illegalEncodingsFaultByName : Obligations.IllegalEncodingsFaultByName := by
  refine ⟨fun _ _ _ => decode_unknownOpcode_iff, fun op rest => ?_,
    fun _ _ _ => fetchSel_invalidSelector_iff.symm, fun om a k rest hinj => ⟨?_, ?_, ?_⟩, fun om a m rest hinj hm => ?_⟩
  · rw [decode_unknownOpcode_iff, ← OpcodeMap.mnemonicOf_eq_none_iff, OpcodeMap.table_mnemonicOf_eq_none_iff]
  · exact (decode_byteOf hinj .shr _).trans (decodeRS_toByte ..)
  · exact (decode_byteOf hinj .shl _).trans (decodeRS_toByte ..)
  · exact (decode_byteOf hinj .cal _).trans (decodeT_cons .cal om.cal k rest)
  · obtain ⟨imm, hdecode, -⟩ := decode_lod_append hinj hm rest
    exact ⟨imm, hdecode⟩

/-- Settles O6: each word is short, so the decoder evaluates on it. -/
theorem writtenWordsDecode : Obligations.WrittenWordsDecode := by
  refine ⟨?_, ?_, ?_, ?_, ?_, ?_, ?_, ?_⟩ <;> decide

end Sys2Proof

/-! PROOFS, 40_execution.md R77 to R79; 60_exceptions.md R121 to R124: the step and the faults. The idea: a running
step is the decoder's fault or the `exec` of the instruction whose encoding stands at the pc; a state newly faulted
comes from `takeFault` either way, with the byte at the pc as the opcode of its record. -/

namespace Sys2Proof

/-! ### The opcode byte of a decoder's error (60_exceptions.md R124) -/

/-- The opcode byte an error carries, if any. -/
def DecodeError.opcode : DecodeError → Option Byte
  | .streamOverrun o => o
  | .unknownOpcode op => some op
  | .invalidSelector op _ => some op

theorem OperandError.opcode_eq {op : Byte} {e : DecodeError} (h : OperandError op e) : e.opcode = some op := by
  obtain rfl | ⟨sel, rfl⟩ := h <;> rfl

/-- The opcode byte of an error is the first of the bytes decoded. -/
theorem decode_error_opcode {om : OpcodeMap} {bs : List Byte} {e : DecodeError} (h : decode om bs = .error e) :
    e.opcode = bs.head? := by
  cases bs with
  | nil => cases h; rfl
  | cons op bs =>
    obtain ⟨m, -, hm⟩ | ⟨-, hm⟩ := decode_cons om op bs
    · exact (decodeOperands_error (hm.symm.trans h)).opcode_eq
    · cases hm.symm.trans h; rfl

end Sys2Proof

namespace Sys2Proof.Machine

/-! ### What stands at the pc -/

/-- The encoding of an instruction at the pc is what the decoder reads there. -/
theorem decodeHere_of_stream {s : State} {i : Instr} {rest : List Byte} (hinj : s.cfg.opcodeMap.Injective)
    (hwf : i.wellFormed = true) (hs : s.stream = encode s.cfg.opcodeMap i ++ rest) : s.decodeHere = .ok (i, rest) := by
  rw [State.decodeHere, hs, encodedInstructionDecodesBack _ _ _ hinj hwf]

/-- What the decoder reads at the pc is the encoding that stands there. -/
theorem stream_of_decodeHere {s : State} {i : Instr} {rest : List Byte} (h : s.decodeHere = .ok (i, rest)) :
    s.stream = encode s.cfg.opcodeMap i ++ rest := (decode_ok h).2

/-- The instruction decoded at the pc lies within the segment (30_encoding.md R57). -/
theorem pc_add_length_le_seglen {s : State} {i : Instr} {rest : List Byte} (h : s.decodeHere = .ok (i, rest)) :
    s.cur.pc + i.length ≤ s.seglen s.cur.seg := by
  have hlen := congrArg List.length (stream_of_decodeHere h)
  have hpos := i.length_pos
  rw [State.stream, List.length_drop, List.length_append, Laws.EncodedLength.of_operands] at hlen
  rw [State.seglen]
  omega

/-- Settles O7: the encoding at the pc decodes to the instruction, which the step runs. -/
theorem stepRunsTheDecodedInstruction : Obligations.StepRunsTheDecodedInstruction := by
  intro s i rest hrun hseg hinj hwf hs
  exact step_of_decode hrun hseg (decodeHere_of_stream hinj hwf hs)

/-- Settles O8: each error of the decoder is raised by `takeFault`. -/
theorem stepRaisesTheDecodersFault : Obligations.StepRaisesTheDecodersFault := by
  intro s hrun hseg
  exact ⟨fun _ hd => step_of_decode_error hrun hseg hd, fun _ hd => step_of_decode_error hrun hseg hd,
    fun _ _ hd => step_of_decode_error hrun hseg hd⟩

theorem step_of_halted {s : State} (h : s.status = .halted) : step s = .fault .runHalted := by
  simp only [step, h]

theorem step_of_faulted {s : State} {r : FaultRecord} (h : s.status = .faulted r) :
    step s = .fault (.runFaulted r) := by
  simp only [step, h]

/-- Settles O9: the step looks at the status first. -/
theorem endedRunHasNoStep : Obligations.EndedRunHasNoStep :=
  ⟨fun _ h => step_of_halted h, fun _ _ h => step_of_faulted h, fun _ _ h => (step_cases h).1⟩

/-! ### Faults -/

/-- The inversion of `exec` for a next state. -/
theorem exec_next_cases {i : Instr} {s t : State} (h : exec i s = .next t) : ExecCase i s (.next t) :=
  h ▸ exec_cases i s

/-- An instruction of a running machine that ends in a fault has raised it. -/
theorem exec_faulted {i : Instr} {s t : State} {r : FaultRecord} (hrun : s.status = .running)
    (h : exec i s = .next t) (hr : t.status = .faulted r) :
    ∃ k d, canRaise i k = true ∧ t = s.takeFault k (some (i.opcode s.cfg.opcodeMap)) d := by
  have hnot : s.status ≠ .faulted r := by rw [hrun]; nofun
  cases exec_next_cases h with
  | changed d => exact absurd hr hnot
  | pushed a => exact absurd hr hnot
  | popped a m => exact absurd hr hnot
  | called k => exact absurd hr hnot
  | left =>
    cases hf : s.frames with
    | nil => rw [s.leaveContext_top hf] at hr; cases hr
    | cons caller rest => rw [s.leaveContext_nested hf] at hr; exact absurd hr hnot
  | raised k d hk => exact ⟨k, d, hk, rfl⟩

/-- Raising an error of the decoder is taking a fault with the error's opcode byte. -/
theorem raiseDecode_eq_takeFault (s : State) (e : DecodeError) :
    ∃ k d, s.raiseDecode e = .next (s.takeFault k e.opcode d) := by
  cases e with
  | streamOverrun o => exact ⟨_, _, rfl⟩
  | unknownOpcode op => exact ⟨_, _, rfl⟩
  | invalidSelector op sel => exact ⟨_, _, rfl⟩

/-- 60_exceptions.md R123, R124: a step that faults takes a fault at the byte at the pc. -/
theorem step_faulted {s t : State} {r : FaultRecord} (h : step s = .next t) (hr : t.status = .faulted r) :
    ∃ k d, t = s.takeFault k (s.ifetch s.cur.seg s.cur.pc) d := by
  rw [ifetch_eq_head]
  obtain ⟨hrun, -, ⟨i, rest, hd, hexec⟩ | ⟨e, hd, hraise⟩⟩ := step_cases h
  · obtain ⟨k, d, -, ht⟩ := exec_faulted hrun hexec hr
    rw [stream_of_decodeHere hd]
    exact ⟨k, d, ht⟩
  · obtain ⟨k, d, ht⟩ := raiseDecode_eq_takeFault s e
    rw [← decode_error_opcode hd]
    exact ⟨k, d, (Host.Outcome.next.inj (ht.symm.trans hraise)).symm⟩

/-- Settles O10: the fault is taken by `takeFault`, which says all of it. -/
theorem faultChangesTheStatusAlone : Obligations.FaultChangesTheStatusAlone := by
  intro s t r h hr
  obtain ⟨k, d, rfl⟩ := step_faulted h hr
  cases hr
  exact ⟨rfl, rfl, rfl, rfl, rfl⟩

/-- The execution column of 60_exceptions.md R121. -/
theorem canRaise_cases {i : Instr} {k : FaultKind} (h : canRaise i k = true) :
    (((∃ a b, i = .div a b) ∨ ∃ a b, i = .mod a b) ∧ k = .divideByZero) ∨
      ((∃ n, i = .cal n) ∧ (k = .callTargetOutOfRange ∨ k = .callDepthExceeded)) ∨
      ((∃ a, i = .psh a) ∧ k = .stackOverflow) ∨ ((∃ a, i = .pop a) ∧ k = .stackUnderflow) := by
  unfold canRaise at h
  split at h
  · exact .inl ⟨.inl ⟨_, _, rfl⟩, rfl⟩
  · exact .inl ⟨.inr ⟨_, _, rfl⟩, rfl⟩
  · exact .inr (.inl ⟨⟨_, rfl⟩, .inl rfl⟩)
  · exact .inr (.inl ⟨⟨_, rfl⟩, .inr rfl⟩)
  · exact .inr (.inr (.inl ⟨⟨_, rfl⟩, rfl⟩))
  · exact .inr (.inr (.inr ⟨⟨_, rfl⟩, rfl⟩))
  · cases h

/-- Settles O11: an instruction that faults raised a kind it can raise. -/
theorem instructionsRaiseOnlyTheirFaults : Obligations.InstructionsRaiseOnlyTheirFaults := by
  intro i s t r hrun h hr
  obtain ⟨k, d, hk, rfl⟩ := exec_faulted hrun h hr
  cases hr
  exact canRaise_cases hk

end Sys2Proof.Machine

/-! PROOFS, 10_state.md R28 to R37: what instructions and steps leave unchanged. The idea: each claim goes through the
cases of `ExecCase`, where every case names the state it ends in, so the claim is the field lemma of that state. -/

namespace Sys2Proof.Machine

/-! ### Library, configuration, scratch stack -/

theorem exec_lib_cfg {i : Instr} {s t : State} (h : exec i s = .next t) : t.lib = s.lib ∧ t.cfg = s.cfg := by
  cases exec_next_cases h with
  | changed d => exact ⟨rfl, rfl⟩
  | pushed a => exact ⟨rfl, rfl⟩
  | popped a m => exact ⟨rfl, rfl⟩
  | called k => exact ⟨rfl, rfl⟩
  | left => exact ⟨s.leaveContext_lib, s.leaveContext_cfg⟩
  | raised k d => exact ⟨rfl, rfl⟩

/-- Settles O20: neither an instruction nor a fault of the decoder writes them. -/
theorem libraryAndConfigurationNeverChange : Obligations.LibraryAndConfigurationNeverChange := by
  intro s t h
  obtain ⟨-, -, ⟨i, rest, -, hexec⟩ | ⟨e, -, hraise⟩⟩ := step_cases h
  · exact exec_lib_cfg hexec
  · obtain ⟨k, o, d, rfl⟩ := raiseDecode_next hraise
    exact ⟨rfl, rfl⟩

/-- 20_memory.md R47: what an instruction can do to the scratch stack: nothing, a push, or a pop. -/
theorem exec_scratch_cases {i : Instr} {s t : State} (h : exec i s = .next t) :
    (t.mem = s.mem ∧ t.sp = s.sp) ∨ (∃ a bs, i = .psh a ∧ t.mem = s.mem.writeBytes s.sp bs) ∨
      ∃ a n, i = .pop a ∧ t.mem = s.mem.truncate n := by
  cases exec_next_cases h with
  | changed d => exact .inl ⟨rfl, rfl⟩
  | pushed a hi => exact .inr (.inl ⟨a, _, hi, rfl⟩)
  | popped a m hi => exact .inr (.inr ⟨a, _, hi, rfl⟩)
  | called k => exact .inl ⟨rfl, rfl⟩
  | left => exact .inl ⟨s.leaveContext_mem, s.leaveContext_sp⟩
  | raised k d => exact .inl ⟨rfl, rfl⟩

/-- Settles O21: the other two cases are a PSH and a POP. -/
theorem onlyPushAndPopTouchTheScratchStack : Obligations.OnlyPushAndPopTouchTheScratchStack := by
  intro i s t h hpsh hpop
  obtain ⟨hmem, hsp⟩ | ⟨a, bs, hi, -⟩ | ⟨a, n, hi, -⟩ := exec_scratch_cases h
  · exact ⟨hsp, fun x => congrArg (Memory.read · x) hmem⟩
  · exact absurd hi (hpsh a)
  · exact absurd hi (hpop a)

/-- Settles O17: writes and truncations keep the canonical form, and nothing else touches the cells. -/
theorem stepKeepsTheScratchCanonical : Obligations.StepKeepsTheScratchCanonical := by
  intro s t hwf h
  obtain ⟨-, -, ⟨i, rest, -, hexec⟩ | ⟨e, -, hraise⟩⟩ := step_cases h
  · obtain ⟨hmem, -⟩ | ⟨a, bs, -, hmem⟩ | ⟨a, n, -, hmem⟩ := exec_scratch_cases hexec
    · exact hmem ▸ hwf
    · exact hmem ▸ Memory.writeBytes_wf hwf _ _
    · exact hmem ▸ Memory.truncate_wf hwf _
  · obtain ⟨k, o, d, rfl⟩ := raiseDecode_next hraise
    exact hwf

/-! ### Flags and remainder registers (10_state.md R22, R23) -/

theorem exec_flags_rems {i : Instr} {s t : State} (h : exec i s = .next t) (hhlt : i ≠ .hlt)
    (hcal : ∀ k, i ≠ .cal k) :
    ((∀ a b, i ≠ .cmp a b) → s.SameFlags t) ∧ ((∀ a b, i ≠ .div a b) → s.SameRemainders t) := by
  cases exec_next_cases h with
  | changed d _ he => exact ⟨he.flags, he.rems⟩
  | pushed a =>
    obtain ⟨-, -, hflags, hrems⟩ := sameContext_of_cur_setPc
      (State.advance_cur (s.stackWrite (pushBytes a.bank (s.operandA a))) i)
    exact ⟨fun _ => hflags, fun _ => hrems⟩
  | popped a m => exact ⟨fun _ => by simp [State.SameFlags], fun _ b => by simp⟩
  | called k hi => exact absurd hi (hcal k)
  | left hi => exact absurd hi hhlt
  | raised k d => exact ⟨fun _ => ⟨rfl, rfl, rfl⟩, fun _ _ => rfl⟩

theorem exec_div_of_ne {a b : Selector} {s : State} (h : (s.operandB a b).toInt ≠ 0) :
    exec (.div a b) s = (s.writeRem a.bank (aluRem (s.operandA a) (s.operandB a b))).completeA (.div a b) a
      (aluQuot (s.operandA a) (s.operandB a b)) := execDiv_of_ne h

theorem exec_div_of_zero {a b : Selector} {s : State} (h : (s.operandB a b).toInt = 0) :
    Raises (.div a b) s .divideByZero none := execDiv_of_zero h

/-- DIV leaves the remainder registers of the other banks alone, whether it completes or faults. -/
theorem exec_div_other_rems {a b : Selector} {s t : State} (h : exec (.div a b) s = .next t) {r : Bank}
    (hr : r ≠ a.bank) : t.cur.rem r = s.cur.rem r := by
  by_cases hzero : (s.operandB a b).toInt = 0
  · cases (exec_div_of_zero hzero).symm.trans h
    rfl
  · rw [exec_div_of_ne hzero] at h
    cases h
    simpa using Context.rem_setRem_other s.cur _ hr

/-- Settles O22: the frame of every instruction, and DIV's own. -/
theorem onlyCmpWritesFlagsAndOnlyDivRemainders : Obligations.OnlyCmpWritesFlagsAndOnlyDivRemainders := by
  intro i s t h hhlt hcal
  obtain ⟨hflags, hrems⟩ := exec_flags_rems h hhlt hcal
  refine ⟨hflags, hrems, ?_⟩
  rintro a b rfl r hr
  exact exec_div_other_rems h hr

/-! ### The frame stack (10_state.md R30, R31) -/

/-- What an instruction of a running machine does to the frames: nothing, a CAL's push, or an HLT's pop. -/
theorem exec_frames_of_running {i : Instr} {s t : State} (hrun : s.status = .running) (h : exec i s = .next t) :
    t.frames = s.frames ∨ ((∃ k, i = .cal k) ∧ t.frames = s.cur.setPc (s.cur.pc + 2) :: s.frames) ∨
      s.frames = t.cur :: t.frames := by
  by_cases hok : ∀ r, t.status ≠ .faulted r
  · obtain ⟨-, -, -, hsame⟩ | ⟨k, rfl, rfl⟩ | ⟨-, rfl⟩ := exec_completed_cases h hok
    · exact .inl hsame
    · exact .inr (.inl ⟨⟨k, rfl⟩, rfl⟩)
    · cases hf : s.frames with
      | nil => left; rw [s.leaveContext_top hf]; exact hf
      | cons caller rest => right; right; rw [s.leaveContext_nested hf]
  · push Not at hok
    obtain ⟨r, hr⟩ := hok
    obtain ⟨k, d, -, rfl⟩ := exec_faulted hrun h hr
    exact .inl rfl

/-- Settles O25: the three cases of the frame stack, a decoder's fault being the first. -/
theorem framesAreAStack : Obligations.FramesAreAStack := by
  intro s t h
  obtain ⟨hrun, -, ⟨i, rest, -, hexec⟩ | ⟨e, -, hraise⟩⟩ := step_cases h
  · obtain hsame | ⟨-, hcall⟩ | hreturn := exec_frames_of_running hrun hexec
    · exact .inl hsame
    · exact .inr (.inl ⟨_, hcall, rfl⟩)
    · exact .inr (.inr hreturn)
  · obtain ⟨k, o, d, rfl⟩ := raiseDecode_next hraise
    exact .inl rfl

end Sys2Proof.Machine

/-! PROOFS, 10_state.md R37; 40_execution.md R77: the invariants over one step. The idea: a step changes the state by a
few moves (the status, the current context, the scratch stack, a call, a return), each of which keeps the invariants
under a condition of its own; the decoder reads within the segment, which is the condition on the pc. -/

namespace Sys2Proof.Machine

/-! ### The moves that keep the invariants -/

theorem State.Inv.withStatus {s : State} (h : s.Inv) (st : Status) : State.Inv { s with status := st } := { h with }

theorem State.Inv.takeFault {s : State} (h : s.Inv) (k : FaultKind) (o : Option Byte) (d : Option Nat) :
    (s.takeFault k o d).Inv := h.withStatus _

theorem State.Inv.withStack {s : State} (h : s.Inv) {m : Memory} {n : Nat} (hm : m.map Prod.fst = List.range n)
    (hcap : withinLimit s.cfg.stackCap n = true) : State.Inv { s with mem := m, sp := n } :=
  { h with stackExact := hm, stackWithinCap := hcap }

/-- The current context goes on in its segment. -/
theorem State.Inv.withCur {s : State} (h : s.Inv) {d : Context} (hseg : d.seg = s.cur.seg)
    (hpc : d.pc ≤ s.seglen s.cur.seg) (hflags : d.flagsExclusive = true) : State.Inv { s with cur := d } where
  stackExact := h.stackExact
  stackWithinCap := h.stackWithinCap
  flagsExclusive := List.forall_mem_cons.mpr ⟨hflags, (List.forall_mem_cons.mp h.flagsExclusive).2⟩
  pcInSegment := List.forall_mem_cons.mpr ⟨hseg ▸ hpc, (List.forall_mem_cons.mp h.pcInSegment).2⟩
  segInLibrary := List.forall_mem_cons.mpr
    ⟨hseg ▸ (List.forall_mem_cons.mp h.segInLibrary).1, (List.forall_mem_cons.mp h.segInLibrary).2⟩
  depthWithinLimit := h.depthWithinLimit
  segsDecrease := by simpa [State.contexts, hseg] using h.segsDecrease
  topIsEntry := by
    have htop := h.topIsEntry
    unfold State.topContext at htop ⊢
    cases hf : s.frames with
    | nil => rw [hf] at htop; exact hseg.trans htop
    | cons caller rest => rw [hf] at htop; exact htop

/-- 45_call.md R110: a call into a later segment of the library, where the depth allows it. -/
theorem State.Inv.enterCall {s : State} (h : s.Inv) {idx : Nat} (hlater : s.cur.seg < idx)
    (hidx : idx < s.lib.length) (hfit : s.callFits = true) : (s.enterCall idx).Inv where
  stackExact := h.stackExact
  stackWithinCap := h.stackWithinCap
  flagsExclusive := List.forall_mem_cons.mpr ⟨rfl, h.flagsExclusive⟩
  pcInSegment := List.forall_mem_cons.mpr ⟨Nat.zero_le _, h.pcInSegment⟩
  segInLibrary := List.forall_mem_cons.mpr ⟨hidx, h.segInLibrary⟩
  depthWithinLimit := hfit
  segsDecrease := by
    obtain ⟨hcur, -⟩ := List.pairwise_cons.mp h.segsDecrease
    refine List.pairwise_cons.mpr ⟨List.forall_mem_cons.mpr ⟨hlater, fun g hg => ?_⟩, h.segsDecrease⟩
    exact (hcur g hg).trans hlater
  topIsEntry := by
    have htop := h.topIsEntry
    rwa [State.topContext, ← List.getLastD_cons] at htop

/-- 45_call.md R113: the innermost caller resumes. -/
theorem State.Inv.resume {s : State} (h : s.Inv) {caller : Context} {rest : List Context}
    (hf : s.frames = caller :: rest) : State.Inv { s with cur := caller, frames := rest } where
  stackExact := h.stackExact
  stackWithinCap := h.stackWithinCap
  flagsExclusive c hc := h.flagsExclusive c (List.mem_cons_of_mem _ (hf ▸ hc))
  pcInSegment c hc := h.pcInSegment c (List.mem_cons_of_mem _ (hf ▸ hc))
  segInLibrary c hc := h.segInLibrary c (List.mem_cons_of_mem _ (hf ▸ hc))
  depthWithinLimit := by
    have hdepth := withinLimit_iff.mp h.depthWithinLimit
    rw [hf, List.length_cons] at hdepth
    exact withinLimit_iff.mpr fun m hm => (Nat.le_succ _).trans (hdepth m hm)
  segsDecrease := by
    have hsegs := h.segsDecrease
    rw [State.contexts, hf] at hsegs
    exact (List.pairwise_cons.mp hsegs).2
  topIsEntry := by
    have htop := h.topIsEntry
    rwa [State.topContext, hf, List.getLastD_cons] at htop

/-! ### Instructions and steps -/

/-- A pop leaves SP within any capacity it was within. -/
theorem State.Inv.capAfterDrop {s : State} (h : s.Inv) (n : Nat) : withinLimit s.cfg.stackCap (s.sp - n) = true :=
  withinLimit_iff.mpr fun m hm => (Nat.sub_le ..).trans (withinLimit_iff.mp h.stackWithinCap m hm)

/-- An instruction within its segment keeps the invariants. -/
theorem State.Inv.after_exec {i : Instr} {s t : State} (h : s.Inv) (hpc : s.cur.pc + i.length ≤ s.seglen s.cur.seg)
    (hexec : exec i s = .next t) : t.Inv := by
  have hflags : s.cur.flagsExclusive = true := h.flagsExclusive _ (List.mem_cons_self ..)
  have hadvance : (s.advance i).Inv := h.withCur rfl hpc hflags
  cases exec_next_cases hexec with
  | changed d _ he => exact h.withCur he.seg (he.pc ▸ hpc) (he.exclusive hflags)
  | pushed a _ hfit =>
    have hdense := Memory.writeBytes_dense h.stackExact (pushBytes a.bank (s.operandA a))
    have hcap : withinLimit s.cfg.stackCap (s.sp + (pushBytes a.bank (s.operandA a)).length) = true := by
      rwa [pushBytes_length]
    exact (h.withStack hdense hcap).withCur rfl hpc hflags
  | popped a m =>
    have hdense := Memory.truncate_dense h.stackExact (Nat.sub_le s.sp a.bank.bytes)
    refine (h.withStack hdense (h.capAfterDrop _)).withCur (d := State.cur (State.advance _ i)) ?_ ?_ ?_
    · simp
    · change _ ≤ s.seglen s.cur.seg
      simpa using hpc
    · simpa [Context.flagsExclusive] using hflags
  | called tgt _ hN hfit => exact hadvance.enterCall (by simp [State.callTarget]; omega) hN hfit
  | left hi =>
    subst hi
    cases hf : s.frames with
    | nil => rw [s.leaveContext_top hf]; exact hadvance.withStatus _
    | cons caller rest => rw [s.leaveContext_nested hf]; exact h.resume hf
  | raised k d => exact h.takeFault ..

/-- Settles O16: the decoder stays within the segment, and a fault of its own changes the status alone. -/
theorem stepKeepsTheInvariant : Obligations.StepKeepsTheInvariant := by
  intro s t h hstep
  obtain ⟨-, -, ⟨i, rest, hd, hexec⟩ | ⟨e, -, hraise⟩⟩ := step_cases hstep
  · exact h.after_exec (pc_add_length_le_seglen hd) hexec
  · obtain ⟨k, o, d, rfl⟩ := raiseDecode_next hraise
    exact h.takeFault k o d

/-- Under the invariants no POP meets a missing byte, so every instruction has a next state. -/
theorem State.Inv.exists_exec_next {s : State} (h : s.Inv) (i : Instr) : ∃ t, exec i s = .next t := by
  have hcase := exec_cases i s
  generalize exec i s = r at hcase
  cases hcase with
  | changed d => exact ⟨_, rfl⟩
  | pushed a => exact ⟨_, rfl⟩
  | popped a m => exact ⟨_, rfl⟩
  | called k => exact ⟨_, rfl⟩
  | left => exact ⟨_, rfl⟩
  | raised k d => exact ⟨_, rfl⟩
  | hole a _ hsp hm =>
    obtain ⟨bs, hbs⟩ := Memory.exists_readBytes h.stackExact hsp
    cases hm.symm.trans hbs

/-- Settles O18: the segment is in the library, and both the instruction and the decoder's fault have a next state. -/
theorem runningMachineAlwaysSteps : Obligations.RunningMachineAlwaysSteps := by
  intro s h hrun
  have hseg : s.cur.seg < s.lib.length := h.segInLibrary _ (List.mem_cons_self ..)
  cases hd : s.decodeHere with
  | ok p => rw [step_of_decode hrun hseg hd]; exact h.exists_exec_next p.1
  | error e =>
    obtain ⟨k, d, hraise⟩ := raiseDecode_eq_takeFault s e
    exact ⟨_, (step_of_decode_error hrun hseg hd).trans hraise⟩

end Sys2Proof.Machine

/-! PROOFS, 40_execution.md R83: every run ends. The idea: give each context of the call chain the number of bytes it
has left, weighted by a power that falls from one segment to the next. An instruction uses up bytes of its own context,
a call adds less than its caller gives up, because the callee's segment is later in the library, and a return drops a
context; so the sum falls with every step that does not end the run. -/

namespace Sys2Proof.Machine

/-- A base larger than the bytes left in any context. -/
def fuelBase (lib : List (List Byte)) : Nat := lib.flatten.length + 2

/-- The bytes a context has left, and one for its return, weighted by its segment's place in the library. -/
def contextFuel (lib : List (List Byte)) (c : Context) : Nat :=
  ((lib.getD c.seg []).length - c.pc + 1) * fuelBase lib ^ (lib.length - c.seg)

/-- The weighted bytes left in the whole call chain. -/
def State.fuel (s : State) : Nat := (s.contexts.map (contextFuel s.lib)).sum

theorem State.fuel_eq (s : State) :
    s.fuel = contextFuel s.lib s.cur + (s.frames.map (contextFuel s.lib)).sum := by
  simp [State.fuel, State.contexts]

theorem fuelBase_pow_pos (lib : List (List Byte)) (n : Nat) : 0 < fuelBase lib ^ n := Nat.pow_pos (Nat.succ_pos _)

theorem contextFuel_pos (lib : List (List Byte)) (c : Context) : 0 < contextFuel lib c :=
  Nat.mul_pos (Nat.succ_pos _) (fuelBase_pow_pos ..)

/-- A context that goes on by `n` bytes gives up the weight of `n` bytes. -/
theorem contextFuel_add_le {lib : List (List Byte)} {c d : Context} {n : Nat} (hseg : d.seg = c.seg)
    (hpc : d.pc = c.pc + n) (hle : d.pc ≤ (lib.getD c.seg []).length) :
    contextFuel lib d + n * fuelBase lib ^ (lib.length - c.seg) ≤ contextFuel lib c := by
  rw [contextFuel, contextFuel, hseg, ← Nat.add_mul]
  exact Nat.mul_le_mul_right _ (by omega)

/-- A fresh context of a later segment weighs less than two bytes of an earlier one. -/
theorem contextFuel_fresh_lt {lib : List (List Byte)} {seg idx : Nat} (hlater : seg < idx) (hidx : idx < lib.length) :
    contextFuel lib (Context.fresh idx) < 2 * fuelBase lib ^ (lib.length - seg) := by
  have hlen : (lib.getD idx []).length + 1 ≤ fuelBase lib := by
    have hmem : lib.getD idx [] ∈ lib := by
      rw [List.getD_eq_getElem _ _ hidx]
      exact List.getElem_mem hidx
    have := (List.sublist_flatten_of_mem hmem).length_le
    rw [fuelBase]
    omega
  calc contextFuel lib (Context.fresh idx)
      ≤ fuelBase lib * fuelBase lib ^ (lib.length - idx) := Nat.mul_le_mul_right _ hlen
    _ = fuelBase lib ^ (lib.length - idx + 1) := (Nat.pow_succ' ..).symm
    _ ≤ fuelBase lib ^ (lib.length - seg) := Nat.pow_le_pow_right (Nat.succ_pos _) (by omega)
    _ < 2 * fuelBase lib ^ (lib.length - seg) := by
      have := fuelBase_pow_pos lib (lib.length - seg)
      omega

/-- The current context goes on by at least one byte. -/
theorem State.fuel_lt_of_advance {s t : State} {n : Nat} (hlib : t.lib = s.lib) (hframes : t.frames = s.frames)
    (hseg : t.cur.seg = s.cur.seg) (hpc : t.cur.pc = s.cur.pc + n) (hn : 0 < n)
    (hle : s.cur.pc + n ≤ s.seglen s.cur.seg) : t.fuel < s.fuel := by
  have hcur := contextFuel_add_le (lib := s.lib) hseg hpc (hpc ▸ hle)
  have hpos := Nat.mul_pos hn (fuelBase_pow_pos s.lib (s.lib.length - s.cur.seg))
  rw [State.fuel_eq, State.fuel_eq, hlib, hframes]
  omega

/-- An instruction within its segment ends the run or leaves less fuel. -/
theorem exec_ended_or_fuel_lt {i : Instr} {s t : State} (hpc : s.cur.pc + i.length ≤ s.seglen s.cur.seg)
    (h : exec i s = .next t) : t.ended ∨ t.fuel < s.fuel := by
  cases exec_next_cases h with
  | changed d _ he => exact .inr (State.fuel_lt_of_advance rfl rfl he.seg he.pc i.length_pos hpc)
  | pushed a => exact .inr (State.fuel_lt_of_advance rfl rfl rfl rfl i.length_pos hpc)
  | popped a m => exact .inr (State.fuel_lt_of_advance rfl rfl (by simp) (by simp) i.length_pos hpc)
  | called tgt hi hN =>
    subst hi
    have hcaller := contextFuel_add_le (c := s.cur) (d := s.cur.setPc (s.cur.pc + 2)) rfl rfl hpc
    have hcallee := contextFuel_fresh_lt (show s.cur.seg < s.callTarget tgt by rw [State.callTarget]; omega) hN
    right
    rw [State.fuel_eq, State.fuel_eq, State.enterCall_frames, List.map_cons, List.sum_cons]
    simp only [State.enterCall_cur, State.enterCall_lib, State.advance_cur, State.advance_lib, State.advance_frames,
      Instr.length]
    omega
  | left =>
    cases hf : s.frames with
    | nil => left; rw [s.leaveContext_top hf]; nofun
    | cons caller rest =>
      have hpos := contextFuel_pos s.lib s.cur
      right
      rw [s.leaveContext_nested hf, s.fuel_eq, hf, List.map_cons, List.sum_cons]
      exact (State.fuel_eq _).trans_lt (Nat.lt_add_of_pos_left hpos)
  | raised k d => exact .inl nofun

/-- A step ends the run or leaves less fuel. -/
theorem step_ended_or_fuel_lt {s t : State} (h : step s = .next t) : t.ended ∨ t.fuel < s.fuel := by
  obtain ⟨-, -, ⟨i, rest, hd, hexec⟩ | ⟨e, -, hraise⟩⟩ := step_cases h
  · exact exec_ended_or_fuel_lt (pc_add_length_le_seglen hd) hexec
  · obtain ⟨k, o, d, rfl⟩ := raiseDecode_next hraise
    exact .inl nofun

/-- Settles O19, by induction on the fuel: a running state has a step, which keeps the invariants. -/
theorem everyRunEnds : Obligations.EveryRunEnds := by
  intro s h
  induction hn : s.fuel using Nat.strong_induction_on generalizing s with
  | _ n ih =>
    by_cases hrun : s.status = .running
    · obtain ⟨t, hstep⟩ := runningMachineAlwaysSteps s h hrun
      obtain hended | hless := step_ended_or_fuel_lt hstep
      · exact ⟨1, t, run_succ_of_next hstep 0, hended⟩
      · obtain ⟨k, u, hrun, hended⟩ := ih _ (hn ▸ hless) t (stepKeepsTheInvariant s t h hstep) rfl
        exact ⟨k + 1, u, (run_succ_of_next hstep k).trans hrun, hended⟩
    · exact ⟨0, s, rfl, hrun⟩

end Sys2Proof.Machine

/-! PROOFS, 45_call.md R109 to R112; 10_state.md R36: CAL, and what a step sees of the saved callers. The idea: CAL's
three outcomes are the three branches of `execCal`, and the callee's context is `Context.fresh`; no instruction but a
returning HLT reads the saved callers, only their number, so replacing them commutes with the step. -/

namespace Sys2Proof.Machine

/-! ### CAL -/

/-- A mnemonic whose operand the decoder reads by `decodeT`, and the encoder writes as one byte, has format T. -/
theorem formT_of_decodeOperands {mk : Byte → Instr} {m : Mnemonic} {byte : Byte}
    (hbyte : OpcodeMap.table.byteOf m = byte) (hencode : ∀ om k, encode om (mk k) = [om.byteOf m, k])
    (hdecode : ∀ op, decodeOperands op m = decodeT mk op) : FormT mk m byte := by
  refine ⟨hbyte, fun k => ?_, fun om hinj => ⟨hencode om, rfl, ?_, fun k rest => ?_⟩⟩
  · rw [← Laws.EncodedLength.of_operands (mk k) OpcodeMap.table, hencode]; rfl
  · rw [decode_byteOf hinj, hdecode, decodeT_nil]
  · rw [decode_byteOf hinj, hdecode, decodeT_cons]

/-- Another frame fits exactly when the limit, if there is one, admits it (45_call.md R111). -/
theorem State.callFits_iff {s : State} :
    s.callFits = true ↔ ∀ m, s.cfg.maxCallDepth = some m → s.frames.length + 1 ≤ m := withinLimit_iff

/-- Settles O24: format T, and the three branches of CAL. -/
theorem calCallsAFreshContextOrFaults : Obligations.CalCallsAFreshContextOrFaults := by
  refine ⟨formT_of_decodeOperands rfl (fun _ _ => rfl) fun _ => rfl, fun k s => ⟨fun hN hfit => ?_, ?_, ?_⟩⟩
  · exact ⟨_, execCal_of_fits hN (State.callFits_iff.mpr hfit), rfl, rfl, rfl, Context.reg_fresh _, rfl, rfl, rfl,
      Context.rem_fresh _, ⟨rfl, fun _ => rfl⟩, rfl, rfl, rfl⟩
  · exact execCal_of_outside
  · intro hN m hm hdeep
    exact execCal_of_deep hN fun hfit => absurd (State.callFits_iff.mp hfit m hm) (Nat.not_le.mpr hdeep)

/-! ### Replacing the saved callers (10_state.md R36) -/

/-- `s` with other saved callers. -/
def State.withFrames (s : State) (fs : List Context) : State := { s with frames := fs }

/-- `t` with the frames below the first ones, all but the lowest `n`, replaced. -/
def State.replaceCallers (n : Nat) (fs : List Context) (t : State) : State :=
  t.withFrames (t.frames.take (t.frames.length - n) ++ fs)

/-- A change of the next state, where there is one. -/
def mapNext (f : State → State) : Result → Result
  | .next t => .next (f t)
  | .fault r => .fault r
  | .refused r => .refused r

theorem ite_mapNext {c : Prop} [Decidable c] {f : State → State} {x y x' y' : Result} (hx : x' = mapNext f x)
    (hy : y' = mapNext f y) : (if c then x' else y') = mapNext f (if c then x else y) := by
  rw [hx, hy, apply_ite (mapNext f)]

section
variable (s : State) {fs : List Context}

/-- A state with no new frame has all its frames replaced. -/
theorem eq_replaceCallers_of_frames {t t' : State} (hframes : t.frames = s.frames) (ht : t' = t.withFrames fs) :
    t' = t.replaceCallers s.frames.length fs := by
  rw [ht, State.replaceCallers, hframes, Nat.sub_self, List.take_zero, List.nil_append]

theorem completeA_withFrames (i : Instr) (a : Selector) (v : BitVec a.bank.width) :
    (s.withFrames fs).completeA i a v = mapNext (.replaceCallers s.frames.length fs) (s.completeA i a v) :=
  congrArg Host.Outcome.next (eq_replaceCallers_of_frames s rfl rfl)

/-- A fault's record holds the number of saved callers only. -/
theorem takeFault_withFrames (hlen : fs.length = s.frames.length) (k : FaultKind) (o : Option Byte) (d : Option Nat) :
    (s.withFrames fs).takeFault k o d = (s.takeFault k o d).replaceCallers s.frames.length fs := by
  refine eq_replaceCallers_of_frames s rfl ?_
  rw [State.takeFault, State.withFrames, hlen]
  rfl

theorem raise_withFrames (hlen : fs.length = s.frames.length) (i : Instr) (k : FaultKind) (d : Option Nat) :
    (s.withFrames fs).raise i k d = mapNext (.replaceCallers s.frames.length fs) (s.raise i k d) :=
  congrArg Host.Outcome.next (takeFault_withFrames s hlen ..)

theorem raiseDecode_withFrames (hlen : fs.length = s.frames.length) (e : DecodeError) :
    (s.withFrames fs).raiseDecode e = mapNext (.replaceCallers s.frames.length fs) (s.raiseDecode e) := by
  cases e with
  | streamOverrun o => exact congrArg Host.Outcome.next (takeFault_withFrames s hlen ..)
  | unknownOpcode op => exact congrArg Host.Outcome.next (takeFault_withFrames s hlen ..)
  | invalidSelector op sel => exact congrArg Host.Outcome.next (takeFault_withFrames s hlen ..)

theorem execPop_withFrames (hlen : fs.length = s.frames.length) (a : Selector) :
    execPop a (s.withFrames fs) = mapNext (.replaceCallers s.frames.length fs) (execPop a s) := by
  by_cases hsp : s.sp < a.bank.bytes
  · rw [execPop_of_short hsp, execPop_of_short (s := s.withFrames fs) hsp, raise_withFrames s hlen]
  · cases hm : s.stackRead a.bank.bytes with
    | some m =>
      rw [execPop_of_read (Nat.not_lt.mp hsp) hm, execPop_of_read (s := s.withFrames fs) (Nat.not_lt.mp hsp) hm]
      exact completeA_withFrames (s.stackDrop a.bank.bytes) ..
    | none =>
      rw [execPop_of_hole (Nat.not_lt.mp hsp) hm, execPop_of_hole (s := s.withFrames fs) (Nat.not_lt.mp hsp) hm]
      rfl

/-- CAL pushes its caller on the saved callers, whatever they are; their number decides whether it may. -/
theorem execCal_withFrames (hlen : fs.length = s.frames.length) (k : Byte) :
    execCal k (s.withFrames fs) = mapNext (.replaceCallers s.frames.length fs) (execCal k s) := by
  have hfits : (s.withFrames fs).callFits = s.callFits := by rw [State.callFits, State.withFrames, hlen]; rfl
  have hcall : ((s.withFrames fs).advance (.cal k)).enterCall (s.callTarget k) =
      ((s.advance (.cal k)).enterCall (s.callTarget k)).replaceCallers s.frames.length fs := by
    simp [State.replaceCallers, State.withFrames, State.enterCall, State.advance]
  rw [execCal, hfits]
  exact ite_mapNext (raise_withFrames s hlen ..) (ite_mapNext (congrArg _ hcall) (raise_withFrames s hlen ..))

/-- Every instruction but a returning HLT does the same whatever the saved callers hold. -/
theorem exec_withFrames (hlen : fs.length = s.frames.length) {i : Instr} (hstays : i = .hlt → s.frames = []) :
    exec i (s.withFrames fs) = mapNext (.replaceCallers s.frames.length fs) (exec i s) := by
  cases i with
  | hlt =>
    have hnil := hstays rfl
    have hfs : fs = [] := List.eq_nil_of_length_eq_zero (by rw [hlen, hnil]; rfl)
    subst hfs
    rw [exec_hlt, exec_hlt, s.leaveContext_top hnil, State.leaveContext_top (s.withFrames []) rfl]
    exact congrArg Host.Outcome.next (eq_replaceCallers_of_frames s rfl rfl)
  | nop | cmp a b => exact congrArg Host.Outcome.next (eq_replaceCallers_of_frames s rfl rfl)
  | lod a imm => exact completeA_withFrames s ..
  | inc a | not a => exact completeA_withFrames s ..
  | shr a k | shl a k => exact completeA_withFrames s ..
  | add a b | sub a b | mul a b | and a b | or a b | xor a b => exact completeA_withFrames s ..
  | div a b => exact ite_mapNext (raise_withFrames s hlen ..) (completeA_withFrames (s.writeRem a.bank _) ..)
  | mod a b => exact ite_mapNext (raise_withFrames s hlen ..) (completeA_withFrames s ..)
  | cal k => exact execCal_withFrames s hlen k
  | psh a =>
    exact ite_mapNext (congrArg Host.Outcome.next (eq_replaceCallers_of_frames s rfl rfl))
      (raise_withFrames s hlen ..)
  | pop a => exact execPop_withFrames s hlen a

end

/-- Settles O27: a step that keeps the depth or raises it is not a returning HLT. -/
theorem stepDoesNotSeeTheCallers : Obligations.StepDoesNotSeeTheCallers := by
  intro s t fs hlen hstep hdepth
  obtain ⟨hrun, hseg, ⟨i, rest, hd, hexec⟩ | ⟨e, hd, hraise⟩⟩ := step_cases hstep
  · have hstays : i = .hlt → s.frames = [] := by
      rintro rfl
      cases hf : s.frames with
      | nil => rfl
      | cons caller rest =>
        rw [exec_hlt, s.leaveContext_nested hf] at hexec
        cases hexec
        rw [hf] at hdepth
        exact absurd hdepth (Nat.not_succ_le_self _)
    have hsame := exec_withFrames s hlen hstays
    rw [hexec] at hsame
    exact (step_of_decode (s := s.withFrames fs) hrun hseg hd).trans hsame
  · have hsame := raiseDecode_withFrames s hlen e
    rw [hraise] at hsame
    exact (step_of_decode_error (s := s.withFrames fs) hrun hseg hd).trans hsame

end Sys2Proof.Machine

/-! PROOFS, 70_reset_and_hazards.md R134, R135; 10_state.md R15: launch, observation, and the load of a word. The idea:
a launch answers one state, exactly under its preconditions; a placed word is the first thing that the decoder sees at
the pc, and what the decoder makes of the word it makes of the word with any bytes behind it. -/

namespace Sys2Proof.Machine

/-! ### Launch -/

/-- Settles O13: the launched state's fields, registers and remainders being those of a fresh context. -/
theorem launchedStateIsAsTheSpecSays : Obligations.LaunchedStateIsAsTheSpecSays :=
  ⟨fun _ _ => ⟨rfl, rfl, rfl, Context.reg_fresh 0, rfl, rfl, rfl, Context.rem_fresh 0, fun _ => rfl, rfl, rfl, rfl⟩,
    rfl⟩

/-- The check of the segments' lengths (92_eei_decisions.md D22). -/
theorem all_withinLimit_iff {limit : Option Nat} {lib : List (List Byte)} :
    lib.all (fun seg => withinLimit limit seg.length) = true ↔
      ∀ seg ∈ lib, ∀ m, limit = some m → seg.length ≤ m := by
  simp only [List.all_eq_true, withinLimit_iff]

/-- The preconditions of a launch (70_reset_and_hazards.md R135; log 11). -/
def LaunchAllowed (cfg : Config) (lib : List (List Byte)) (stack : List Byte) : Prop :=
  lib ≠ [] ∧ stack = [] ∧ cfg.opcodeMap.Injective ∧ ∀ seg ∈ lib, ∀ m, cfg.maxSegmentLen = some m → seg.length ≤ m

/-- A launch answers the launched state where its preconditions hold, and else is refused. -/
theorem launch_cases (cfg : Config) (lib : List (List Byte)) (stack : List Byte) :
    (LaunchAllowed cfg lib stack ∧ launch cfg lib stack = .next (State.launched cfg lib)) ∨
      (¬ LaunchAllowed cfg lib stack ∧ ∃ r, launch cfg lib stack = .refused r) := by
  rw [LaunchAllowed, ← all_withinLimit_iff, launch]
  simp only [Bool.not_eq_true', decide_eq_false_iff_not]
  split_ifs with hlib hstack hinj hlen
  · exact .inr ⟨fun ⟨h, _⟩ => h hlib, _, rfl⟩
  · exact .inr ⟨fun ⟨_, h, _⟩ => hstack h, _, rfl⟩
  · exact .inr ⟨fun ⟨_, _, _, h⟩ => Bool.false_ne_true (hlen.symm.trans h), _, rfl⟩
  · exact .inl ⟨⟨hlib, not_not.mp hstack, hinj, Bool.of_not_eq_false hlen⟩, rfl⟩
  · exact .inr ⟨fun ⟨_, _, h, _⟩ => hinj h, _, rfl⟩

/-- Settles O14: the two cases of a launch. -/
theorem launchIsRefusedOutsideItsPreconditions : Obligations.LaunchIsRefusedOutsideItsPreconditions := by
  intro cfg lib stack
  obtain ⟨hok, hnext⟩ | ⟨hbroken, r, hrefused⟩ := launch_cases cfg lib stack
  · rw [hnext]
    exact ⟨iff_of_true ⟨_, rfl⟩ hok, fun s hs => (Host.Outcome.next.inj hs).symm, nofun⟩
  · rw [hrefused]
    refine ⟨iff_of_false ?_ hbroken, ?_, nofun⟩
    · rintro ⟨s, hs⟩; cases hs
    · intro s hs; cases hs

/-- The launched state over any library with a segment meets the invariants. -/
theorem launched_inv {cfg : Config} {lib : List (List Byte)} (hlib : lib ≠ []) : (State.launched cfg lib).Inv where
  stackExact := rfl
  stackWithinCap := withinLimit_iff.mpr fun _ _ => Nat.zero_le _
  flagsExclusive := List.forall_mem_singleton.mpr rfl
  pcInSegment := List.forall_mem_singleton.mpr (Nat.zero_le _)
  segInLibrary := List.forall_mem_singleton.mpr (List.length_pos_iff.mpr hlib)
  depthWithinLimit := withinLimit_iff.mpr fun _ _ => Nat.zero_le _
  segsDecrease := List.pairwise_singleton ..
  topIsEntry := rfl

/-- Settles O15: a launch that answers has a segment, and so has the reset state. -/
theorem launchedStateMeetsTheInvariant : Obligations.LaunchedStateMeetsTheInvariant := by
  refine ⟨fun cfg lib stack s hs => ?_, launched_inv nofun⟩
  obtain ⟨⟨hlib, -⟩, hnext⟩ | ⟨-, r, hrefused⟩ := launch_cases cfg lib stack
  · cases hnext.symm.trans hs
    exact launched_inv hlib
  · cases hrefused.symm.trans hs

/-! ### Observation -/

theorem observe_of_running {s : State} (h : s.status = .running) : s.observe = none := by
  simp only [State.observe, h]

theorem observe_of_ended {s : State} (h : s.ended) :
    s.observe = some { status := s.status, top := s.topContext, mem := s.mem, sp := s.sp } := by
  unfold State.observe
  split
  · next hrun => exact absurd hrun h
  · rfl
  · rfl

/-- Settles O50: the two branches of the port; the top-level context is the last of the frames, if there are any. -/
theorem observationOnlyAfterTheEnd : Obligations.ObservationOnlyAfterTheEnd := by
  refine fun s => ⟨observe_of_running, fun h => ⟨_, observe_of_ended h, rfl, rfl, rfl, fun hf => ?_, fun fs c hf => ?_⟩⟩
  · simp [State.topContext, hf]
  · simp [State.topContext, hf]

/-! ### A word placed where the step fetches (log 12) -/

/-- Bytes placed at an offset stand there. -/
theorem drop_placeBytes (seg : List Byte) (n : Nat) (bytes : List Byte) :
    (placeBytes seg n bytes).drop n = bytes ++ seg.drop (n + bytes.length) := by
  have hlen : (seg.take n ++ List.replicate (n - seg.length) 0).length = n := by
    simp only [List.length_append, List.length_take, List.length_replicate]
    omega
  rw [placeBytes, List.append_assoc, List.drop_left' hlen]

/-- Placing bytes in a segment makes the library have it. -/
theorem lt_length_placeInLibrary (lib : List (List Byte)) (seg n : Nat) (bytes : List Byte) :
    seg < (placeInLibrary lib seg n bytes).length := by
  simp only [placeInLibrary, List.length_set, List.length_append, List.length_replicate]
  omega

/-- The segment placed into holds the bytes. -/
theorem getD_placeInLibrary (lib : List (List Byte)) (seg n : Nat) (bytes : List Byte) :
    ∃ old, (placeInLibrary lib seg n bytes).getD seg [] = placeBytes old n bytes := by
  rw [List.getD_eq_getElem _ _ (lt_length_placeInLibrary lib seg n bytes)]
  exact ⟨_, List.getElem_set_self _⟩

theorem stream_withFetchWord (s : State) (nbits w : Nat) :
    ∃ after, (s.withFetchWord nbits w).stream = tableWordBytes nbits w ++ after := by
  obtain ⟨old, hold⟩ := getD_placeInLibrary s.lib s.cur.seg s.cur.pc (tableWordBytes nbits w)
  exact ⟨_, (congrArg (List.drop s.cur.pc) hold).trans (drop_placeBytes ..)⟩

/-- A table word that the decoder reads is the encoding of the instruction, then unused bytes. -/
theorem tableWordBytes_of_decodeTableWord {nbits w : Nat} {i : Instr} (h : decodeTableWord nbits w = some i) :
    i.wellFormed = true ∧ ∃ unused, tableWordBytes nbits w = encode OpcodeMap.table i ++ unused := by
  unfold decodeTableWord at h
  split at h
  · next rest hd =>
    cases h
    obtain ⟨hwf, hbytes⟩ := decode_ok hd
    exact ⟨hwf, _, hbytes⟩
  · cases h

/-- Settles O51: the word's instruction stands at the pc, and the segment is in the library. -/
theorem placedWordRunsNext : Obligations.PlacedWordRunsNext := by
  intro s nbits w i hmap hword
  obtain ⟨hwf, unused, hbytes⟩ := tableWordBytes_of_decodeTableWord hword
  obtain ⟨after, hstream⟩ := stream_withFetchWord s nbits w
  rw [hbytes, List.append_assoc, ← hmap] at hstream
  exact stepRunsTheDecodedInstruction _ i _ rfl (lt_length_placeInLibrary ..) (hmap ▸ OpcodeMap.table_injective) hwf
    hstream

end Sys2Proof.Machine

/-! PROOFS, 41_load.md R88; log 31: LOD's read-back law, and the LOD that no bytes decode to. The idea: the immediate
is the number that its bytes spell big-endian, of which the first byte is the most significant, so it alone decides on
which side of `2^(W-1)` the number lies. -/

namespace Sys2Proof

theorem leNat_eq_foldr (bs : List Byte) : leNat bs = bs.foldr (fun b acc => acc * 256 + b.toNat) 0 := by
  induction bs with
  | nil => rfl
  | cons b bs ih => rw [leNat, List.foldr_cons, ← ih, Nat.mul_comm, Nat.add_comm]

/-- `BE(bytes)` by Horner's rule from the first byte on. -/
theorem beNat_eq_foldl (bs : List Byte) : beNat bs = bs.foldl (fun acc b => acc * 256 + b.toNat) 0 := by
  rw [beNat, leNat_eq_foldr, List.foldr_reverse]

theorem leNat_append (xs ys : List Byte) : leNat (xs ++ ys) = leNat xs + 256 ^ xs.length * leNat ys := by
  induction xs with
  | nil => simp [leNat]
  | cons x xs ih =>
    rw [List.cons_append, leNat, leNat, ih, List.length_cons, Nat.pow_succ]
    ring

theorem beNat_cons (b : Byte) (bs : List Byte) : beNat (b :: bs) = beNat bs + 256 ^ bs.length * b.toNat := by
  rw [beNat, List.reverse_cons, leNat_append, List.length_reverse]
  rfl

/-- The first byte of a big-endian number is its sign byte. -/
theorem two_pow_le_two_mul_beNat_iff (b : Byte) (bs : List Byte) :
    256 ^ (bs.length + 1) ≤ 2 * beNat (b :: bs) ↔ 0x80 ≤ b.toNat := by
  have hlow := beNat_lt bs
  rw [beNat_cons, Nat.pow_succ]
  constructor
  · intro h
    by_contra hb
    have : 256 ^ bs.length * b.toNat ≤ 256 ^ bs.length * 127 := Nat.mul_le_mul_left _ (by omega)
    omega
  · intro hb
    have : 256 ^ bs.length * 128 ≤ 256 ^ bs.length * b.toNat := Nat.mul_le_mul_left _ hb
    omega

end Sys2Proof

namespace Sys2Proof.Machine

theorem exec_lod (a : Selector) (imm : BitVec 128) (s : State) :
    exec (.lod a imm) s = s.completeA (.lod a imm) a (immOperand a.bank imm) := rfl

/-- A word of as many bytes as its bank, read signed: its first byte decides. -/
theorem toInt_of_toNat_eq_beNat {b : Bank} {v : BitVec b.width} {m : List Byte} (hm : m.length = b.bytes)
    (hv : v.toNat = beNat m) :
    v.toInt = if 0x80 ≤ (m.headD 0).toNat then (beNat m : Int) - 2 ^ b.width else beNat m := by
  cases m with
  | nil => exact absurd hm b.bytes_pos.ne
  | cons x xs =>
    have hsign := two_pow_le_two_mul_beNat_iff x xs
    rw [← List.length_cons (a := x), hm, Bank.pow_bytes] at hsign
    rw [BitVec.toInt_eq_toNat_cond, hv, List.headD_cons]
    by_cases hx : 0x80 ≤ x.toNat
    · rw [if_neg (Nat.not_lt.mpr (hsign.mpr hx)), if_pos hx]
      norm_cast
    · rw [if_pos (Nat.not_le.mp fun h => hx (hsign.mp h)), if_neg hx]

/-- The immediate that a bank's bytes spell is their number. -/
theorem immOperand_beNat_toNat {b : Bank} {m : List Byte} (hm : m.length = b.bytes) :
    (immOperand b (BitVec.ofNat 128 (beNat m))).toNat = beNat m := by
  have hlt : beNat m < 2 ^ b.width := by
    rw [← Bank.pow_bytes, ← hm]
    exact beNat_lt m
  rw [immOperand_toNat (immediate_of_bytes b hm).1, BitVec.toNat_ofNat]
  exact Nat.mod_eq_of_lt (hlt.trans_le (Nat.pow_le_pow_right (by decide) b.width_le))

/-- Settles O30: the step runs the LOD of the bytes, whose immediate is `BE(m)`. -/
theorem lodReadsBackItsBytes : Obligations.LodReadsBackItsBytes := by
  intro s a m rest hrun hseg hinj hm hs
  rw [Bank.width_div_eight] at hm
  rw [← beNat_eq_foldl]
  have hd : s.decodeHere = .ok (.lod a (BitVec.ofNat 128 (beNat m)), rest) := by
    rw [State.decodeHere, hs]
    exact (decode_lod hinj _).trans (decodeRI_append _ _ _ hm rest)
  obtain ⟨t, ht, hreg, -⟩ := writesOnly_of_completeA (exec_lod a (BitVec.ofNat 128 (beNat m)) s) rfl
  have hnat : (t.cur.reg a.bank a.index).toNat = beNat m := by rw [hreg, immOperand_beNat_toNat hm]
  exact ⟨t, (step_of_decode hrun hseg hd).trans ht, hnat, toInt_of_toNat_eq_beNat hm hnat⟩

/-- The value LOD writes is the immediate's low bits. -/
theorem immOperand_eq_setWidth (b : Bank) (imm : BitVec 128) : immOperand b imm = imm.setWidth b.width :=
  BitVec.ofNat_toNat ..

/-- Settles O52: the register write takes the immediate at the bank's width. -/
theorem illFormedLodWritesTheLowBits : Obligations.IllFormedLodWritesTheLowBits := by
  intro a imm s _
  rw [Bank.width_div_eight, ← immOperand_eq_setWidth]
  exact writesOnly_of_completeA (exec_lod a imm s) rfl

end Sys2Proof.Machine

/-! PROOFS, 42_arithmetic.md R95 to R97: DIV and MOD. The idea: DIV is a write of the remainder register, then the one
register write of `completeA`, MOD that write alone; quotient and remainder are the library's `sdiv` and `srem`, so the
division law is the law of truncating division of the integers, reduced modulo `2^W`. -/

namespace Sys2Proof.Machine

/-! ### The effects of DIV and MOD -/

theorem exec_mod_of_ne {a b : Selector} {s : State} (h : (s.operandB a b).toInt ≠ 0) :
    exec (.mod a b) s = s.completeA (.mod a b) a (aluRem (s.operandA a) (s.operandB a b)) := execMod_of_ne h

theorem exec_mod_of_zero {a b : Selector} {s : State} (h : (s.operandB a b).toInt = 0) :
    Raises (.mod a b) s .divideByZero none := execMod_of_zero h

/-- Settles O35: format RR, the two writes of a DIV by a nonzero divisor, and the fault of one by zero. -/
theorem divWritesQuotientAndRemainder : Obligations.DivWritesQuotientAndRemainder := by
  refine ⟨formRR_of_decodeOperands rfl (fun _ _ _ => rfl) fun _ => rfl, fun a b s => ⟨fun hy => ?_, exec_div_of_zero⟩⟩
  obtain ⟨t, ht, hquot, hregs, hflags, hrems, hscratch, hrun, hpc⟩ :=
    State.completeA_spec (s.writeRem a.bank (aluRem (s.operandA a) (s.operandB a b))) (.div a b) a
      (aluQuot (s.operandA a) (s.operandB a b))
  refine ⟨t, (exec_div_of_ne hy).trans ht, hquot, ?_, fun r hr => ?_, fun c j hj => ?_, ?_, hscratch, ?_, ?_⟩
  · exact (hrems a.bank).trans (s.cur.rem_setRem_same ..)
  · exact (hrems r).trans (s.cur.rem_setRem_other _ hr)
  · exact (hregs c j hj).trans (s.cur.reg_setRem ..)
  · simpa [State.SameFlags] using hflags
  · simpa [State.SameRun] using hrun
  · simpa [Instr.length] using hpc

/-- Settles O36: format RR, the one register write of a MOD by a nonzero divisor, and the fault of one by zero. -/
theorem modWritesTheRemainder : Obligations.ModWritesTheRemainder :=
  ⟨formRR_of_decodeOperands rfl (fun _ _ _ => rfl) fun _ => rfl,
    fun _ _ _ => ⟨fun hy => writesOnly_of_completeA (exec_mod_of_ne hy) rfl, exec_mod_of_zero⟩⟩

/-! ### The division law -/

section
variable {w : Nat} (x y : BitVec w)

theorem aluQuot_eq : aluQuot x y = x.sdiv y := by
  apply BitVec.eq_of_toInt_eq
  rw [aluQuot, BitVec.toInt_ofInt, BitVec.toInt_sdiv]

theorem aluRem_eq : aluRem x y = x.srem y := by
  rw [aluRem, trem_eq_tmod, ← BitVec.toInt_srem, BitVec.ofInt_toInt]

theorem aluRem_toInt : (aluRem x y).toInt = x.toInt.tmod y.toInt := by
  rw [aluRem_eq, BitVec.toInt_srem]

/-- The law modulo `2^w`. -/
theorem aluQuot_mul_add_aluRem : aluQuot x y * y + aluRem x y = x := by
  have hlaw : x.toInt.tdiv y.toInt * y.toInt + trem x.toInt y.toInt = x.toInt := by
    rw [trem_eq_tmod, Int.tdiv_mul_add_tmod]
  calc aluQuot x y * y + aluRem x y
      = BitVec.ofInt w (x.toInt.tdiv y.toInt * y.toInt + trem x.toInt y.toInt) := by
        rw [BitVec.ofInt_add, BitVec.ofInt_mul, BitVec.ofInt_toInt, aluQuot, aluRem]
    _ = x := by rw [hlaw, BitVec.ofInt_toInt]

/-- The quotient does not wrap, but for MIN / -1 (92_eei_decisions.md D13). -/
theorem aluQuot_toInt (hw : 0 < w) (h : ¬ (x.toInt = -(2 : Int) ^ (w - 1) ∧ y.toInt = -1)) :
    (aluQuot x y).toInt = x.toInt.tdiv y.toInt := by
  rw [aluQuot_eq, BitVec.toInt_sdiv_of_ne_or_ne]
  by_contra hminmax
  push Not at hminmax
  obtain ⟨rfl, rfl⟩ := hminmax
  refine h ⟨BitVec.toInt_intMin_of_pos hw, ?_⟩
  rw [BitVec.neg_one_eq_allOnes, BitVec.toInt_allOnes, if_pos hw]

end

/-- The remainder of truncating division is zero or has the dividend's sign (92_eei_decisions.md D12). -/
theorem tmod_zero_or_sign (a b : Int) : a.tmod b = 0 ∨ (0 < a.tmod b ∧ 0 < a) ∨ (a.tmod b < 0 ∧ a < 0) := by
  have hsign := Int.sign_tmod a b
  split_ifs at hsign
  · exact .inl (Int.sign_eq_zero_iff_zero.mp hsign)
  · obtain hneg | rfl | hpos := Int.lt_trichotomy a 0
    · rw [Int.sign_eq_neg_one_of_neg hneg] at hsign
      exact .inr (.inr ⟨Int.sign_eq_neg_one_iff_neg.mp hsign, hneg⟩)
    · exact .inl (Int.zero_tmod b)
    · rw [Int.sign_eq_one_of_pos hpos] at hsign
      exact .inr (.inl ⟨Int.sign_eq_one_iff_pos.mp hsign, hpos⟩)

/-- Settles O37: the states of DIV and MOD, and the law for what they hold. -/
theorem divisionLawHolds : Obligations.DivisionLawHolds := by
  intro a b s hy
  obtain ⟨t, ht, hquot, hrem, -⟩ := (divWritesQuotientAndRemainder.2 a b s).1 hy
  obtain ⟨u, hu, hmod, -⟩ := (modWritesTheRemainder.2 a b s).1 hy
  have hq : t.cur.reg a.bank a.index = aluQuot (s.cur.reg a.bank a.index) (s.cur.reg a.bank b.index) := hquot
  have hr : t.cur.rem a.bank = aluRem (s.cur.reg a.bank a.index) (s.cur.reg a.bank b.index) := hrem
  refine ⟨t, u, ht, hu, hmod.trans hrem.symm, ?_, fun hwrap => ?_, ?_, ?_⟩
  · rw [hq, hr]
    exact (aluQuot_mul_add_aluRem ..).symm
  · rw [hq, hr, aluQuot_toInt _ _ a.bank.width_pos hwrap, aluRem_toInt]
    exact (Int.tdiv_mul_add_tmod ..).symm
  · rw [hr, aluRem_toInt, Int.natAbs_tmod]
    exact Nat.mod_lt _ (Int.natAbs_pos.mpr hy)
  · rw [hr, aluRem_toInt]
    exact tmod_zero_or_sign ..

end Sys2Proof.Machine

/-! PROOFS, 43_shift_logic.md R98 to R100: SHR and SHL. The idea: each completes with the one register write of
`completeA`, and the value written is the library's arithmetic right shift or its left shift by `shamt mod W`, of which
the library says the bits. -/

namespace Sys2Proof.Machine

/-- A mnemonic whose operands the decoder reads by `decodeRS`, and the encoder writes as a selector and a byte, has
format RS. -/
theorem formRS_of_decodeOperands {mk : Selector → Byte → Instr} {m : Mnemonic} {byte : Byte}
    (hbyte : OpcodeMap.table.byteOf m = byte)
    (hencode : ∀ om a k, encode om (mk a k) = [om.byteOf m, a.toByte, k])
    (hdecode : ∀ op, decodeOperands op m = decodeRS mk op) : FormRS mk m byte := by
  refine ⟨hbyte, fun a k => ?_, fun om hinj => ⟨hencode om, rfl, ?_, fun x rest hx => ?_, fun a => ?_,
    fun a k rest => ?_⟩⟩
  · rw [← Laws.EncodedLength.of_operands (mk a k) OpcodeMap.table, hencode]; rfl
  · rw [decode_byteOf hinj, hdecode, decodeRS_nil]
  · rw [decode_byteOf hinj, hdecode, decodeRS_invalid _ _ hx]
  · rw [decode_byteOf hinj, hdecode, decodeRS_short]
  · rw [decode_byteOf hinj, hdecode, decodeRS_toByte]

theorem exec_shr (a : Selector) (shamt : Byte) (s : State) :
    exec (.shr a shamt) s =
      s.completeA (.shr a shamt) a (aluShr (s.operandA a) (shiftAmount a.bank.width shamt)) := rfl

theorem exec_shl (a : Selector) (shamt : Byte) (s : State) :
    exec (.shl a shamt) s =
      s.completeA (.shl a shamt) a (aluShl (s.operandA a) (shiftAmount a.bank.width shamt)) := rfl

/-- Bit `j` of a right shift is bit `j + k`, or the sign bit beyond the top. -/
theorem getLsbD_aluShr {w : Nat} (x : BitVec w) (k : Nat) {j : Nat} (hj : j < w) :
    (aluShr x k).getLsbD j = if j + k < w then x.getLsbD (j + k) else x.msb := by
  rw [aluShr_eq, BitVec.getLsbD_sshiftRight, decide_eq_false (Nat.not_le.mpr hj), Nat.add_comm k j]
  rfl

/-- Bit `j` of a left shift is bit `j - k`, or 0 below `k`. -/
theorem getLsbD_aluShl {w : Nat} (x : BitVec w) (k : Nat) {j : Nat} (hj : j < w) :
    (aluShl x k).getLsbD j = (decide (k ≤ j) && x.getLsbD (j - k)) := by
  rw [aluShl_eq, BitVec.getLsbD_shiftLeft, decide_eq_true hj, Bool.true_and]
  simp only [← decide_not, Nat.not_lt]

/-- Settles O38: format RS, the one register write of SHR, and the bits of the value. -/
theorem shrShiftsArithmetically : Obligations.ShrShiftsArithmetically :=
  ⟨formRS_of_decodeOperands rfl (fun _ _ _ => rfl) fun _ => rfl,
    fun a shamt s => ⟨writesOnly_of_completeA (exec_shr a shamt s) rfl, fun _ hj => getLsbD_aluShr _ _ hj⟩⟩

/-- Settles O39: format RS, the one register write of SHL, and the bits of the value. -/
theorem shlShiftsLeft : Obligations.ShlShiftsLeft :=
  ⟨formRS_of_decodeOperands rfl (fun _ _ _ => rfl) fun _ => rfl,
    fun a shamt s => ⟨writesOnly_of_completeA (exec_shl a shamt s) rfl, fun _ hj => getLsbD_aluShl _ _ hj⟩⟩

end Sys2Proof.Machine

/-! PROOFS, 46_stack.md R115 to R118; 20_memory.md R43 to R51: PSH and POP. The idea: a push is a run of bytes written
at SP, and where the scratch stack's bytes are exactly those below SP, a pop of as many bytes as were written last
reads them back and leaves the stack that was there before, whatever register widths cut the bytes. -/

namespace Sys2Proof.Machine

/-! ### The effects of PSH and POP -/

/-- A push fits exactly when the capacity, if there is one, admits it (20_memory.md R42). -/
theorem State.pushFits_iff {s : State} {n : Nat} :
    s.pushFits n = true ↔ ∀ cap, s.cfg.stackCap = some cap → s.sp + n ≤ cap := withinLimit_iff

/-- `s` after a PSH of register `a` that fits. -/
def State.pushed (s : State) (a : Selector) : State :=
  (s.stackWrite (pushBytes a.bank (s.operandA a))).advance (.psh a)

theorem State.pushed_cur (s : State) (a : Selector) : (s.pushed a).cur = s.cur.setPc (s.cur.pc + 2) := rfl

theorem State.pushed_sp (s : State) (a : Selector) : (s.pushed a).sp = s.sp + a.bank.bytes := by
  rw [State.pushed, State.advance_sp, State.stackWrite_sp, pushBytes_length]

theorem exec_psh_of_fits {a : Selector} {s : State}
    (h : ∀ cap, s.cfg.stackCap = some cap → s.sp + a.bank.bytes ≤ cap) : exec (.psh a) s = .next (s.pushed a) :=
  execPsh_of_fits (State.pushFits_iff.mpr h)

theorem State.readByte_stackWrite (s : State) (bs : List Byte) {k : Nat} (hk : k < bs.length) :
    (s.stackWrite bs).readByte (s.sp + k) = bs[k]? := by
  rw [State.readByte, State.stackWrite_mem, Memory.read_writeBytes, if_pos (by omega), Nat.add_sub_cancel_left]

theorem State.readByte_stackWrite_other (s : State) (bs : List Byte) {x : Nat}
    (hx : x < s.sp ∨ s.sp + bs.length ≤ x) : (s.stackWrite bs).readByte x = s.readByte x := by
  rw [State.readByte, State.stackWrite_mem, Memory.read_writeBytes, if_neg (by omega), State.readByte]

/-- Settles O45: format R, the bytes that a push writes and those it leaves, and the fault of a push beyond the
capacity. -/
theorem pshPushesLittleEndian : Obligations.PshPushesLittleEndian := by
  refine ⟨formR_of_decodeOperands rfl (fun _ _ => rfl) fun _ => rfl, fun a s => ?_⟩
  rw [Bank.width_div_eight]
  refine ⟨fun hfits => ?_, fun cap hcap hfull => ?_⟩
  · obtain ⟨hseg, hregs, hflags, hrems⟩ := sameContext_of_cur_setPc (s.pushed_cur a)
    refine ⟨_, exec_psh_of_fits hfits, s.pushed_sp a, fun k hk => ?_, fun x hx => ?_, hregs, hflags, hrems,
      ⟨rfl, rfl, hseg, rfl, rfl⟩, rfl⟩
    · exact (s.readByte_stackWrite _ (by rwa [pushBytes_length])).trans (pushBytes_getElem? _ _ hk)
    · exact s.readByte_stackWrite_other _ (by rwa [pushBytes_length])
  · exact execPsh_of_full fun hfits => absurd (State.pushFits_iff.mp hfits cap hcap) (Nat.not_le.mpr hfull)

/-- A run of bytes cannot be read exactly when one of its offsets holds no byte. -/
theorem Memory.readBytes_eq_none_iff {m : Memory} {a n : Nat} :
    m.readBytes a n = none ↔ ∃ k < n, m.read (a + k) = none := by
  cases hm : m.readBytes a n with
  | some bs =>
    obtain ⟨hlen, hread⟩ := Memory.readBytes_eq_some.mp hm
    refine iff_of_false nofun fun ⟨k, hk, hnone⟩ => ?_
    rw [hread k hk, List.getElem?_eq_none_iff, hlen] at hnone
    omega
  | none =>
    refine iff_of_true rfl ?_
    by_contra hlive
    push Not at hlive
    have hsome : m.readBytes a n = some ((List.range n).map fun k => (m.read (a + k)).getD 0) := by
      refine Memory.readBytes_eq_some.mpr ⟨by simp, fun k hk => ?_⟩
      obtain ⟨b, hb⟩ := Option.ne_none_iff_exists'.mp (hlive k hk)
      simp [hk, hb]
    cases hm.symm.trans hsome

/-- Settles O46: format R, and the three branches of POP; the bytes left are those of the truncation. -/
theorem popReplacesTheRegister : Obligations.PopReplacesTheRegister := by
  refine ⟨formR_of_decodeOperands rfl (fun _ _ => rfl) fun _ => rfl, fun a s => ?_⟩
  rw [Bank.width_div_eight]
  refine ⟨fun hsp hlive => ?_, execPop_of_short, fun hsp hhole => execPop_of_hole hsp
    (Memory.readBytes_eq_none_iff.mpr hhole)⟩
  have hread : s.stackRead a.bank.bytes ≠ none := fun hnone => by
    obtain ⟨k, hk, hk'⟩ := Memory.readBytes_eq_none_iff.mp hnone
    exact hlive k hk hk'
  obtain ⟨m, hm⟩ := Option.ne_none_iff_exists'.mp hread
  obtain ⟨hlen, hbytes⟩ := Memory.readBytes_eq_some.mp hm
  obtain ⟨t, ht, hreg, hregs, hflags, hrems, ⟨htsp, hscratch⟩, hrun, hpc⟩ :=
    State.completeA_spec (s.stackDrop a.bank.bytes) (.pop a) a (popValue a.bank m)
  refine ⟨t, (execPop_of_read hsp hm).trans ht, htsp, fun k hk => ?_, fun x hx => ?_, fun x hx => ?_, hregs, hflags,
    hrems, hrun, hpc⟩
  · rw [hreg]
    exact (hbytes k hk).trans (popValue_extract a.bank hlen hk)
  · exact (hscratch x).trans ((Memory.read_truncate ..).trans (if_pos hx))
  · exact (hscratch x).trans ((Memory.read_truncate ..).trans (if_neg (Nat.not_lt.mpr hx)))

/-! ### A pop of the bytes written last -/

/-- Every cell of a dense scratch stack lies below SP. -/
theorem Memory.lt_of_dense {m : Memory} {sp : Nat} (h : m.map Prod.fst = List.range sp) :
    ∀ x ∈ m.map Prod.fst, x < sp := fun _ hx => List.mem_range.mp (h ▸ hx)

/-- `u` after a POP that moves the bytes `bs` into register `a` and leaves the scratch stack of `s`. -/
def State.popped (u s : State) (a : Selector) (bs : List Byte) : State :=
  (State.writeA { u with mem := s.mem, sp := s.sp } a (popValue a.bank bs)).advance (.pop a)

theorem State.popped_cur (u s : State) (a : Selector) (bs : List Byte) :
    (u.popped s a bs).cur = (u.cur.setReg a.bank a.index (popValue a.bank bs)).setPc (u.cur.pc + 2) := by
  simp [State.popped, Instr.length]

theorem State.popped_sp (u s : State) (a : Selector) (bs : List Byte) : (u.popped s a bs).sp = s.sp := rfl

/-- POP takes the bytes written last off the scratch stack of `s`, and restores it. -/
theorem exec_pop_of_written {s u : State} (hdense : s.mem.map Prod.fst = List.range s.sp) {a : Selector}
    {bs : List Byte} (hlen : bs.length = a.bank.bytes) (hmem : u.mem = s.mem.writeBytes s.sp bs)
    (hsp : u.sp = s.sp + bs.length) : exec (.pop a) u = .next (u.popped s a bs) := by
  have hback : s.sp + bs.length - bs.length = s.sp := Nat.add_sub_cancel ..
  have hread : u.stackRead a.bank.bytes = some bs := by
    rw [State.stackRead, hmem, hsp, ← hlen, hback, Memory.readBytes_writeBytes]
  have hdrop : u.stackDrop a.bank.bytes = { u with mem := s.mem, sp := s.sp } := by
    rw [State.stackDrop, hmem, hsp, ← hlen, hback, Memory.truncate_writeBytes (Memory.lt_of_dense hdense)]
  have hle : a.bank.bytes ≤ u.sp := by omega
  rw [State.popped, ← hdrop]
  exact execPop_of_read hle hread

/-- Settles O47: the pop of the bytes that the push wrote, which are the value's. -/
theorem popAfterPshRestores : Obligations.PopAfterPshRestores := by
  rintro ⟨bank, i⟩ ⟨_, j⟩ s rfl h hfits
  rw [Bank.width_div_eight] at hfits
  refine ⟨_, _, exec_psh_of_fits hfits, exec_pop_of_written h.stackExact (pushBytes_length ..) rfl rfl, rfl, rfl, ?_,
    fun b k hk => ?_, ?_, fun b => ?_, ?_⟩
  · simp [State.popped_cur, State.pushed_cur, State.operandA]
  · simp [State.popped_cur, State.pushed_cur, Context.reg_setReg_other _ _ hk]
  · simp [State.SameFlags, State.popped_cur, State.pushed_cur]
  · simp [State.popped_cur, State.pushed_cur]
  · exact ⟨rfl, rfl, by simp [State.popped_cur, State.pushed_cur], rfl, rfl⟩

/-! ### Pushes, then pops in reverse order (46_stack.md R118) -/

theorem execAll_cons_of_next {i : Instr} {s t : State} (h : exec i s = .next t) (is : List Instr) :
    execAll (i :: is) s = execAll is t := by
  rw [execAll, h]

theorem execAll_append_of_next {is : List Instr} {s t : State} (h : execAll is s = .next t) (js : List Instr) :
    execAll (is ++ js) s = execAll js t := by
  induction is generalizing s with
  | nil => cases h; rfl
  | cons i is ih =>
    cases hi : exec i s with
    | next u =>
      rw [execAll_cons_of_next hi] at h
      rw [List.cons_append, execAll_cons_of_next hi, ih h]
    | fault r => rw [execAll, hi] at h; cases h
    | refused r => rw [execAll, hi] at h; cases h

theorem Context.setReg_setPc (c : Context) (p : Nat) (b : Bank) (i : Fin 64) (v : BitVec b.width) :
    (c.setPc p).setReg b i v = (c.setReg b i v).setPc p := by
  cases b <;> rfl

/-- Popping the register pushed last, at any pc, restores the state but for the pc. -/
theorem exec_pop_of_pushed {s : State} (hdense : s.mem.map Prod.fst = List.range s.sp) (a : Selector) (p : Nat) :
    exec (.pop a) { s.pushed a with cur := s.cur.setPc p } = .next { s with cur := s.cur.setPc (p + 2) } := by
  have hreg : (s.cur.setPc p).setReg a.bank a.index (s.operandA a) = s.cur.setPc p := by
    rw [Context.setReg_setPc, State.operandA, Context.setReg_self]
  rw [exec_pop_of_written (s := s) hdense (pushBytes_length ..) rfl rfl, State.popped, popValue_pushBytes,
    State.writeA, hreg]
  rfl

/-- The pushes and the pops in reverse order, wherever the pc stands: the pops of the registers after the first restore
the state that its push left. -/
theorem execAll_pushes_pops (regs : List Selector) {s : State} (hdense : s.mem.map Prod.fst = List.range s.sp)
    (hfits : ∀ cap, s.cfg.stackCap = some cap → s.sp + (regs.map fun a => a.bank.bytes).sum ≤ cap) :
    execAll (regs.map .psh ++ regs.reverse.map .pop) s =
      .next { s with cur := s.cur.setPc (s.cur.pc + 4 * regs.length) } := by
  induction regs generalizing s with
  | nil => rfl
  | cons a regs ih =>
    simp only [List.map_cons, List.sum_cons] at hfits
    have hpush := exec_psh_of_fits (a := a) (s := s) fun cap hcap => by
      have := hfits cap hcap
      omega
    have hinner := ih (s := s.pushed a) (Memory.writeBytes_dense hdense _) fun cap hcap => by
      have := hfits cap hcap
      rw [State.pushed_sp]
      omega
    have hpop := exec_pop_of_pushed hdense a (s.cur.pc + 2 + 4 * regs.length)
    rw [List.map_cons, List.reverse_cons, List.map_append, List.cons_append, execAll_cons_of_next hpush,
      ← List.append_assoc, execAll_append_of_next hinner, List.map_singleton]
    refine (execAll_cons_of_next hpop []).trans ?_
    rw [execAll, List.length_cons, show s.cur.pc + 2 + 4 * regs.length + 2 = s.cur.pc + 4 * (regs.length + 1) by omega]

/-- Settles O48: what `execAll_pushes_pops` says, for a state that meets the invariants. -/
theorem pushesThenPopsInReverseRestore : Obligations.PushesThenPopsInReverseRestore := by
  intro regs s h hfits
  simp only [Bank.width_div_eight] at hfits
  exact execAll_pushes_pops regs h.stackExact hfits

/-! ### Bytes pushed at one width and popped at another (20_memory.md R51) -/

theorem leNat_pushBytes (b : Bank) (v : BitVec b.width) : leNat (pushBytes b v) = v.toNat := by
  rw [pushBytes, leNat_leBytes, Bank.pow_bytes, Nat.mod_eq_of_lt v.isLt]

theorem popValue_toNat {b : Bank} {m : List Byte} (hm : m.length = b.bytes) : (popValue b m).toNat = leNat m := by
  have hlt := leNat_lt m
  rw [hm, Bank.pow_bytes] at hlt
  rw [popValue, BitVec.toNat_ofNat, Nat.mod_eq_of_lt hlt]

theorem Memory.writeBytes_append (m : Memory) (a : Nat) (xs ys : List Byte) :
    m.writeBytes a (xs ++ ys) = (m.writeBytes a xs).writeBytes (a + xs.length) ys := by
  induction xs generalizing m a with
  | nil => rfl
  | cons x xs ih =>
    rw [List.cons_append, Memory.writeBytes, Memory.writeBytes, ih, List.length_cons]
    congr 1
    omega

/-- Two 32-bit pushes and a 64-bit pop: the pop takes the bytes of both pushes. -/
theorem execAll_narrow_pushes_wide_pop {s : State} (hdense : s.mem.map Prod.fst = List.range s.sp)
    (hfits : ∀ cap, s.cfg.stackCap = some cap → s.sp + 8 ≤ cap) (i j k : Fin 64) :
    ∃ t, execAll [.psh ⟨.b32, i⟩, .psh ⟨.b32, j⟩, .pop ⟨.b64, k⟩] s = .next t ∧
      (t.cur.reg .b64 k).toNat = (s.cur.reg .b32 i).toNat + 2 ^ 32 * (s.cur.reg .b32 j).toNat ∧ t.sp = s.sp := by
  have hfirst := exec_psh_of_fits (a := ⟨.b32, i⟩) (s := s) fun cap hcap =>
    show s.sp + 4 ≤ cap from (Nat.le_add_right _ 4).trans (hfits cap hcap)
  have hsecond := exec_psh_of_fits (a := ⟨.b32, j⟩) (s := s.pushed ⟨.b32, i⟩) hfits
  have hpop := exec_pop_of_written (a := ⟨.b64, k⟩) (u := (s.pushed ⟨.b32, i⟩).pushed ⟨.b32, j⟩)
    (bs := pushBytes .b32 (s.cur.reg .b32 i) ++ pushBytes .b32 (s.cur.reg .b32 j)) hdense rfl
    (Memory.writeBytes_append ..).symm rfl
  rw [execAll_cons_of_next hfirst, execAll_cons_of_next hsecond, execAll_cons_of_next hpop]
  refine ⟨_, rfl, ?_, State.popped_sp ..⟩
  rw [State.popped_cur, Context.reg_setPc, Context.reg_setReg_same, popValue_toNat rfl, leNat_append, leNat_pushBytes,
    leNat_pushBytes, pushBytes_length, Bank.pow_bytes]
  rfl

/-- A 64-bit push and two 32-bit pops: the first pop takes the last four bytes of the push. -/
theorem execAll_wide_push_narrow_pops {s : State} (hdense : s.mem.map Prod.fst = List.range s.sp)
    (hfits : ∀ cap, s.cfg.stackCap = some cap → s.sp + 8 ≤ cap) {i j : Fin 64} (k : Fin 64) (hij : i ≠ j) :
    ∃ t, execAll [.psh ⟨.b64, k⟩, .pop ⟨.b32, i⟩, .pop ⟨.b32, j⟩] s = .next t ∧
      (s.cur.reg .b64 k).toNat = (t.cur.reg .b32 j).toNat + 2 ^ 32 * (t.cur.reg .b32 i).toNat ∧ t.sp = s.sp := by
  obtain ⟨low, high, hcut, hlow, hhigh⟩ : ∃ low high, pushBytes .b64 (s.cur.reg .b64 k) = low ++ high ∧
      low.length = 4 ∧ high.length = 4 := ⟨_, _, (List.take_append_drop 4 _).symm, rfl, rfl⟩
  have hmem : (s.pushed ⟨.b64, k⟩).mem = (s.stackWrite low).mem.writeBytes (s.stackWrite low).sp high :=
    (congrArg (s.mem.writeBytes s.sp) hcut).trans (Memory.writeBytes_append ..)
  have hsp : (s.pushed ⟨.b64, k⟩).sp = (s.stackWrite low).sp + high.length := by
    rw [State.pushed_sp, State.stackWrite_sp, hlow, hhigh]; rfl
  have hpush := exec_psh_of_fits (a := ⟨.b64, k⟩) (s := s) hfits
  have hpopHigh := exec_pop_of_written (a := ⟨.b32, i⟩) (Memory.writeBytes_dense hdense low) hhigh hmem hsp
  have hpopLow := exec_pop_of_written (a := ⟨.b32, j⟩) (s := s)
    (u := (s.pushed ⟨.b64, k⟩).popped (s.stackWrite low) ⟨.b32, i⟩ high) hdense hlow rfl rfl
  have hvalue : (s.cur.reg .b64 k).toNat = leNat low + 2 ^ 32 * leNat high := by
    rw [← leNat_pushBytes .b64, hcut, leNat_append, hlow]
    norm_num
  rw [execAll_cons_of_next hpush, execAll_cons_of_next hpopHigh, execAll_cons_of_next hpopLow]
  refine ⟨_, rfl, ?_, State.popped_sp ..⟩
  rw [hvalue, ← popValue_toNat (b := .b32) hlow, ← popValue_toNat (b := .b32) hhigh]
  simp [State.popped_cur, Context.reg_setReg_other _ _ (Or.inr hij)]

/-- Settles O49: one lemma for each order of widths. -/
theorem mixedWidthsShareTheBytes : Obligations.MixedWidthsShareTheBytes := fun i j k _ h hfits =>
  ⟨execAll_narrow_pushes_wide_pop h.stackExact hfits i j k, execAll_wide_push_narrow_pops h.stackExact hfits k⟩

end Sys2Proof.Machine
